-- ==== Sys2Proof/Word.lean ====
section
/-! DEFINITION. The bit-vector types of the block (00_scope.md R8, R10): bit 0 is the least-significant bit. -/

namespace Sys2Proof

/-- One byte of RawBytes or of a VarintBuffer: `BYTE_W` = 8 bits (R8). -/
abbrev Byte := BitVec 8

/-- A Value: an unsigned integer of `VALUE_W` = 64 bits (R62). -/
abbrev Value := BitVec 64

/-- A payload chunk: `CHUNK_W` = 7 bits (R64). -/
abbrev Chunk := BitVec 7

/-- The WideAccumulator, the `data` field and `RES_DATA`: `WIDE_W` = 80 bits (R68, R24). -/
abbrev Wide := BitVec 80

/-- A length field, `len` or `RES_LEN`: `LEN_W` = 4 bits (R73, R23). -/
abbrev Len := BitVec 4

/-- The status register's content: `STATUS_W` = 3 bits (R22). -/
abbrev StatusWord := BitVec 3

/-- A command word: `CW_W` = 88 bits (R71). -/
abbrev CommandWord := BitVec 88

end Sys2Proof
end

