-- ==== Sys2Proof/Config.lean ====
section
/-! DEFINITION. The implementation parameters of 00_scope.md R8 that are numbers the operations use, and the one open
parameter. The widths of R8 are the widths of the types of Word.lean. -/

namespace Sys2Proof.Config

/-- `RAW_LEN`: bytes in RawBytes; fixed for this hardware (R8, R9). -/
def rawLen : Nat := 8

/-- `CHUNK_W`: payload bits per VarintBuffer byte (R8, R64). -/
def chunkW : Nat := 7

/-- `BYTE_W`: bits per byte (R8). -/
def byteW : Nat := 8

/-- `CONT_BIT`: the index of the continuation bit in a VarintBuffer byte (R8, R64). -/
def contBit : Nat := 7

/-- `MAX_CHUNKS`: the largest VarintBuffer length (R8, R63). -/
def maxChunks : Nat := 10

/-- `MIN_CHUNKS`: the smallest VarintBuffer length (R8, R63). -/
def minChunks : Nat := 1

/-- `LATENCY`: the time from the k-th command to its response. OPEN (R8, R199): no body, and no definition of
the model depends on it (DESIGN CHOICE that it may differ from command to command, log 9; safe). -/
opaque latency : Nat → Nat

end Sys2Proof.Config
end

