-- ==== Sys2Proof/Syntax.lean ====
section
/-! DEFINITION. The instructions, one constructor per row of spec/opcode_table.json, and the assembler's lines
(30_encoding.md R71 to R82). Every field of the 88-bit word that a row does not fix is an argument, the ignored
ones too, so that no bit of a word is lost in decoding. -/

namespace Sys2Proof

/-- The operand source, the `src` bit of a command word (R75). -/
inductive OperandSource where
  /-- `src = 0`: the operand is (`CW.len`, `CW.data`). -/
  | command
  /-- `src = 1`: the operand is (`RES.LEN`, `RES.DATA`). -/
  | results
  deriving DecidableEq, Repr

/-- A command word, read (R72, R76, R78). -/
inductive Instr where
  /-- PARSE, the big-endian byte unpacker (`op = 0`, R94). -/
  | parse (src : OperandSource) (len : Len) (data : Wide)
  /-- ENCODE, the varint encoder (`op = 1`, R109). -/
  | encode (src : OperandSource) (len : Len) (data : Wide)
  /-- DECODE, the varint decoder (`op = 2`, R129). -/
  | decode (src : OperandSource) (len : Len) (data : Wide)
  /-- RESERVED_OP3: `op = 3`, every other bit unexamined (R76). -/
  | reservedOp3 (src : OperandSource) (rsv : Bool) (len : Len) (data : Wide)
  /-- RESERVED_RSV1: `rsv = 1`, whatever `op` is (R76). -/
  | reservedRsv1 (op : BitVec 2) (src : OperandSource) (len : Len) (data : Wide)
  deriving DecidableEq, Repr

/-- One line of the assembler syntax (R80), and the one pseudo-instruction (R81). -/
inductive AsmLine where
  /-- `PARSE n: b0 b1 ... bk` -/
  | parse (n : Nat) (bytes : List Byte)
  /-- `PARSE RES` -/
  | parseRes
  /-- `ENCODE v` -/
  | encode (v : Nat)
  /-- `ENCODE RES` -/
  | encodeRes
  /-- `DECODE b0 b1 ... b(n-1)` -/
  | decode (bytes : List Byte)
  /-- `DECODE n, p`, the raw form -/
  | decodeRaw (n : Nat) (p : Nat)
  /-- `DECODE RES` -/
  | decodeRes
  /-- `.cw w` -/
  | word (w : Nat)
  /-- `RTRIP b0 ... b7` -/
  | rtrip (bytes : List Byte)
  deriving DecidableEq, Repr

end Sys2Proof
end

