-- ==== Sys2Proof/WellFormed.lean ====
section
/-! DEFINITION. What a term of Syntax.lean must satisfy to stand for exactly one command word, or one assembler line. -/

namespace Sys2Proof

/-- A well-formed instruction. The two reserved rows overlap (a word with `op = 3` and `rsv = 1` matches both, R78);
such a word is read as RESERVED_RSV1, whose row says "the word is illegal whatever op is", so a RESERVED_OP3 has
`rsv = 0` (DESIGN CHOICE, log 5; safe: both rows have the same effect, R76). Every other field may hold any value (R77). -/
def Instr.wellFormed : Instr → Bool
  | .parse _ _ _ => true
  | .encode _ _ _ => true
  | .decode _ _ _ => true
  | .reservedOp3 _ rsv _ _ => !rsv
  | .reservedRsv1 _ _ _ _ => true

/-- A line the assembler accepts (R80, R81): the number of bytes listed after `PARSE n:` is `min(n, 8)`, and every
number fits its field. -/
def AsmLine.wellFormed : AsmLine → Bool
  | .parse n bytes => decide (n < 16) && decide (bytes.length = min n Config.rawLen)
  | .parseRes => true
  | .encode v => decide (v < 2 ^ 64)
  | .encodeRes => true
  | .decode bytes => decide (bytes.length ≤ Config.maxChunks)
  | .decodeRaw n p => decide (n < 16) && decide (p < 2 ^ 80)
  | .decodeRes => true
  | .word w => decide (w < 2 ^ 88)
  | .rtrip bytes => decide (bytes.length = Config.rawLen)

end Sys2Proof
end

