-- ==== Sys2Proof/Decode.lean ====
section
/-! DEFINITION. The command word: its fields, the decoder, total on every 88-bit word (30_encoding.md R71 to R78), its
byte form (R71), the match and mask table (R78), and the encoder. Not the operation DECODE, which is
Machine/VarintDecoder.lean. -/

namespace Sys2Proof

/-! ## Fields (R71) -/

/-- `CW.op`, bits 87:86. -/
def CommandWord.op (w : CommandWord) : BitVec 2 := w.extractLsb' 86 2

/-- `CW.src`, bit 85. -/
def CommandWord.src (w : CommandWord) : BitVec 1 := w.extractLsb' 85 1

/-- `CW.rsv`, bit 84. -/
def CommandWord.rsv (w : CommandWord) : BitVec 1 := w.extractLsb' 84 1

/-- `CW.len`, bits 83:80. -/
def CommandWord.len (w : CommandWord) : Len := w.extractLsb' 80 4

/-- `CW.data`, bits 79:0. -/
def CommandWord.data (w : CommandWord) : Wide := w.extractLsb' 0 80

/-- The operand source that a `src` bit selects (R75). -/
def sourceOfBit (b : BitVec 1) : OperandSource := if b = 0 then .command else .results

/-! ## The decoder (R78) -/

/-- R78, in its order: an illegal word first (`rsv`, then `op = 3`), then the operation by `op`. -/
def decode (w : CommandWord) : Instr :=
  let src := sourceOfBit (CommandWord.src w)
  let len := CommandWord.len w
  let data := CommandWord.data w
  if CommandWord.rsv w = 1 then .reservedRsv1 (CommandWord.op w) src len data
  else if CommandWord.op w = 3 then .reservedOp3 src false len data
  else if CommandWord.op w = 0 then .parse src len data
  else if CommandWord.op w = 1 then .encode src len data
  else .decode src len data

/-- Why a byte string is not a command word. -/
inductive DecodeError where
  /-- Fewer than the 11 bytes of a command word (R71); raised by `decodeBytes` only. Safe: nothing runs. -/
  | truncatedCommand (available : Nat)
  deriving DecidableEq, Repr

/-- The word whose bytes are listed most significant first (R71). -/
def wordOfBytes (bytes : List Byte) : Nat :=
  bytes.foldl (fun acc b => acc * 256 + b.toNat) 0

/-- A command written as 11 bytes, most-significant first: byte 0 is the header byte `CW[87:80]`, bytes 1 to 10 are
`data` (R71). Answers the instruction and the bytes after it. -/
def decodeBytes (bytes : List Byte) : Except DecodeError (Instr × List Byte) :=
  if bytes.length < 11 then .error (.truncatedCommand bytes.length)
  else .ok (decode (BitVec.ofNat 88 (wordOfBytes (bytes.take 11))), bytes.drop 11)

/-! ## The match and mask table (R78) -/

/-- One row of the table: `w` matches when `w &&& mask = value`. -/
structure OpcodeRow where
  mnemonic : String
  value : CommandWord
  mask : CommandWord
  deriving DecidableEq, Repr

/-- The five rows of spec/opcode_table.json, with R78's match and mask values. -/
def opcodeTable : List OpcodeRow :=
  [ { mnemonic := "PARSE", value := 0x0000000000000000000000#88, mask := 0xD000000000000000000000#88 },
    { mnemonic := "ENCODE", value := 0x4000000000000000000000#88, mask := 0xD000000000000000000000#88 },
    { mnemonic := "DECODE", value := 0x8000000000000000000000#88, mask := 0xD000000000000000000000#88 },
    { mnemonic := "RESERVED_OP3", value := 0xC000000000000000000000#88, mask := 0xC000000000000000000000#88 },
    { mnemonic := "RESERVED_RSV1", value := 0x1000000000000000000000#88, mask := 0x1000000000000000000000#88 } ]

/-- Whether `w` has a row's fixed bits. -/
def OpcodeRow.hits (r : OpcodeRow) (w : CommandWord) : Bool := w &&& r.mask == r.value

/-- The table row an instruction stands for. -/
def Instr.mnemonic : Instr → String
  | .parse _ _ _ => "PARSE"
  | .encode _ _ _ => "ENCODE"
  | .decode _ _ _ => "DECODE"
  | .reservedOp3 _ _ _ _ => "RESERVED_OP3"
  | .reservedRsv1 _ _ _ _ => "RESERVED_RSV1"

/-! ## The encoder (R71) -/

/-- The `src` bit of an operand source (R75). -/
def OperandSource.bit : OperandSource → BitVec 1
  | .command => 0
  | .results => 1

/-- `op || src || rsv || len || data` (R71). -/
def assembleWord (op : BitVec 2) (src : OperandSource) (rsv : BitVec 1) (len : Len) (data : Wide) : CommandWord :=
  op ++ (src.bit ++ (rsv ++ (len ++ data)))

/-- The word of an instruction (R71, R72, R76). -/
def encode : Instr → CommandWord
  | .parse src len data => assembleWord 0 src 0 len data
  | .encode src len data => assembleWord 1 src 0 len data
  | .decode src len data => assembleWord 2 src 0 len data
  | .reservedOp3 src rsv len data => assembleWord 3 src (BitVec.ofBool rsv) len data
  | .reservedRsv1 op src len data => assembleWord op src 1 len data

/-- Byte `k` of a word, counted from the least significant (R10). -/
def CommandWord.byteAt (w : CommandWord) (k : Nat) : Byte := w.extractLsb' (8 * k) 8

/-- The 11 bytes of a word, most significant first (R71). -/
def bytesOfWord (w : CommandWord) : List Byte :=
  (List.range 11).map fun i => CommandWord.byteAt w (10 - i)

/-! ## The host's reading of a table word -/

/-- The bits of a table word below bit `nbits`, as a command word. The table numbers one word of 88 bits, bit 0 its least
significant, which is R71's own numbering; bits above `nbits` are 0. -/
def tableWord (nbits w : Nat) : CommandWord := BitVec.ofNat 88 (w % 2 ^ nbits)

/-- The instruction the decoder reads from the table word; `none` for a word that has a bit above bit 87, which no command
word has (log 6; safe). -/
def decodeTableWord (nbits w : Nat) : Option Instr :=
  if w % 2 ^ nbits < 2 ^ 88 then some (decode (tableWord nbits w)) else none

end Sys2Proof
end

