-- ==== Sys2Proof/Machine/State.lean ====
section
/-! DEFINITION. The state of the block (10_state.md R21 to R24, R31), the errors (60_exceptions.md R160), the actions of
the host (10_state.md R20), and the reasons a step can stop (there are none: 43_arithmetic_and_laws.md R150). -/

namespace Sys2Proof.Machine

/-- The named errors of a command (R160). ZeroValueEncoding is not among them (R163). -/
inductive CodecError where
  /-- PARSE with fewer than 8 bytes available (R161). -/
  | truncatedInput
  /-- DECODE of more than 10 chunks, or of a value of 2^64 or more (R162). -/
  | oversizedDecodeInput
  /-- An illegal word, forwarding without a result, or an operand outside the contracts (R164). -/
  | illegalCommand
  deriving DecidableEq, Repr

/-- The effective operand (`elen`, `edata`) of a command (R75). -/
structure Operand where
  len : Len
  data : Wide
  deriving DecidableEq, Repr

/-- What a command that ends `OK` writes to `RES_LEN` and `RES_DATA` (R79). -/
structure Result where
  len : Len
  data : Wide
  deriving DecidableEq, Repr

/-- The response: the content of the three result registers, as the host reads them (R79). -/
structure Response where
  status : StatusWord
  len : Len
  data : Wide
  deriving DecidableEq, Repr

/-- What the host can do to the block (R20, R201). -/
inductive HostAction where
  /-- Issue a command word, any of the 2^88 (R71, R201). -/
  | issue (w : CommandWord)
  /-- Read the result registers (R21). -/
  | read
  /-- Assert reset between two commands (R190). -/
  | reset
  /-- Issue a word and assert reset while it executes: the command is abandoned without a response (R190). -/
  | abandon (w : CommandWord)
  deriving DecidableEq, Repr

/-- The state. The first three fields are the whole architectural state of the block (R21); `pending` is the host's
(R20, R26): its actions still to come, oldest first. -/
structure State where
  /-- `RES_STATUS` (R22). -/
  resStatus : StatusWord
  /-- `RES_LEN` (R23). -/
  resLen : Len
  /-- `RES_DATA` (R24). -/
  resData : Wide
  /-- The model's own field: what the host does next (DESIGN CHOICE, log 1; safe: every list is allowed). -/
  pending : List HostAction
  deriving DecidableEq, Repr

/-- The state right after reset (R31, R190), with nothing issued yet (log 1). -/
def State.reset : State := { resStatus := 0, resLen := 0, resData := 0, pending := [] }

/-- Why the machine stops with a fault. There is no such reason: every command in every state gives exactly one next
state, and no command hangs (R150, R200), so the type has no constructor (DEDUCED, log 11; safe). -/
inductive Fault where
  deriving DecidableEq, Repr

/-- Why the model refuses to go on. -/
inductive Refusal where
  /-- An instruction without a meaning; safe, since nothing is proved of it. No arm of `exec` answers so. -/
  | notModelled (mnemonic : String)
  deriving DecidableEq, Repr

end Sys2Proof.Machine
end

