-- ==== Sys2Proof/Machine/Flags.lean ====
section
/-! DEFINITION. Status codes. The block has no flags, condition codes or predicates: the outcome of a command is reported
only in `RES_STATUS` (10_state.md R27). This file holds the codes of that register (R22). -/

namespace Sys2Proof.Machine

/-- `IDLE`: no command has completed since reset (R22). -/
def statusIdle : StatusWord := 0

/-- `OK`: the last command succeeded (R22). -/
def statusOk : StatusWord := 1

/-- The code of an error in `RES_STATUS` (R160). -/
def CodecError.code : CodecError → StatusWord
  | .truncatedInput => 2
  | .oversizedDecodeInput => 3
  | .illegalCommand => 4

/-- The largest code any rule writes; 5, 6 and 7 are never written (R22). -/
def statusLast : StatusWord := 4

end Sys2Proof.Machine
end

