-- ==== Sys2Proof/Machine/Ops.lean ====
section
/-! DEFINITION. The shared operations on the state: writing the response, ending a command with an error, reset, and
taking the host's next action. There is no memory (20_memory.md R40), so no operation reads or writes one. -/

namespace Sys2Proof.Machine

/-- What the host reads: the three result registers (R79). A read has no side effect (R21). -/
def State.response (s : State) : Response :=
  { status := s.resStatus, len := s.resLen, data := s.resData }

/-- The one write of the block: all three result registers together (R21, R47). -/
def State.writeResponse (s : State) (status : StatusWord) (len : Len) (data : Wide) : State :=
  { s with resStatus := status, resLen := len, resData := data }

/-- A command that ends `OK` (R79, R107, R128). -/
def complete (r : Result) (s : State) : State := s.writeResponse statusOk r.len r.data

/-- Error entry, `raise E()` (R166): the code to `RES_STATUS`, zero to the other two, and nothing else. Nothing is saved
and control goes nowhere, so there is no return from an error and nothing to restore (R168). -/
def raise (e : CodecError) (s : State) : State := s.writeResponse e.code 0 0

/-- The end of a command: its result, or its error. -/
def finish (outcome : Except CodecError Result) (s : State) : State :=
  match outcome with
  | .ok r => complete r s
  | .error e => raise e s

/-- Reset, an action of the host (R190): all three registers to 0. What the host does afterwards is the host's. -/
def State.assertReset (s : State) : State := s.writeResponse statusIdle 0 0

/-- The host's next action, and the state with that action taken from its list. -/
def State.nextAction (s : State) : Option (HostAction × State) :=
  match s.pending with
  | [] => none
  | a :: rest => some (a, { s with pending := rest })

/-- The host issues a word after all it has listed so far (R26). -/
def State.issueLast (s : State) (w : CommandWord) : State :=
  { s with pending := s.pending ++ [HostAction.issue w] }

/-- The host issues a word before all it has listed so far. -/
def State.issueFirst (s : State) (w : CommandWord) : State :=
  { s with pending := HostAction.issue w :: s.pending }

end Sys2Proof.Machine
end

