-- ==== Sys2Proof/Machine/Operands.lean ====
section
/-! DEFINITION. The operand of a command: its source (43_arithmetic_and_laws.md R151), and the lanes in which RawBytes, a
Value and a packed VarintBuffer sit in 80 bits (30_encoding.md R61, R62, R67, R74). -/

namespace Sys2Proof.Machine

/-- `operand(CW)` (R151): the command's own fields, or the result registers as the command before left them, which is legal
only when `RES.STATUS` is `OK` (R75, R165). Untyped: it does not ask what kind of result they hold (R197). -/
def selectOperand (src : OperandSource) (len : Len) (data : Wide) (s : State) : Except CodecError Operand :=
  match src with
  | .command => .ok { len := len, data := data }
  | .results =>
    if s.resStatus = statusOk then .ok { len := s.resLen, data := s.resData } else .error .illegalCommand

/-- A command: it takes its operand, computes, and writes its response once (R47, R150). -/
def runOperation (operation : Operand → Except CodecError Result) (src : OperandSource) (len : Len) (data : Wide)
    (s : State) : State :=
  finish ((selectOperand src len data s).bind operation) s

/-- `RB[i] = data[63-8i : 56-8i]` for `i` in 0..7 (R61). -/
def rawByte (data : Wide) (i : Nat) : Byte := data.extractLsb' (56 - 8 * i) 8

/-- RawBytes, `RB[0]` first (R60, R61). `data[79:64]` is not part of it. -/
def rawBytes (data : Wide) : List Byte := (List.range Config.rawLen).map (rawByte data)

/-- The Value in bits 63:0; bits 79:64 are ignored (R62). -/
def valueField (data : Wide) : Value := data.extractLsb' 0 64

/-- The packed form `P = data[8n-1:0]`, zero extended; the bits above are ignored (R67, R121). -/
def packedForm (n : Nat) (data : Wide) : Wide := (data.extractLsb' 0 (8 * n)).setWidth 80

/-- `VB[i] = data[8(n-1-i)+7 : 8(n-1-i)]` for `i` in 0..n-1 (R67, R74). -/
def varintByte (n : Nat) (data : Wide) (i : Nat) : Byte := data.extractLsb' (8 * (n - 1 - i)) 8

/-- The VarintBuffer of length `n` in a data field, `VB[0]` first (R67). -/
def varintBytes (n : Nat) (data : Wide) : List Byte := (List.range n).map (varintByte n data)

/-- A Value as a result: length 8, bits 79:64 zero (R62). -/
def valueResult (v : Value) : Result := { len := BitVec.ofNat 4 Config.rawLen, data := v.setWidth 80 }

end Sys2Proof.Machine
end

