-- ==== Sys2Proof/Machine/ByteParser.lean ====
section
/-! DEFINITION. PARSE, the big-endian byte unpacker (40_parse.md R90 to R94). -/

namespace Sys2Proof.Machine

/-- The loop of R93 over the bytes still to visit: `value += byte << (pos * 8)`, `pos` rising by one per byte. -/
def accumulateBytes : List Byte → Nat → Value → Value
  | [], _, value => value
  | byte :: rest, pos, value =>
    accumulateBytes rest (pos + 1) (value + (byte.setWidth 64 <<< (pos * Config.byteW)))

/-- The Value of RawBytes: last array index first, from `pos = 0` and `value = 0` (R93). -/
def parseValue (rb : List Byte) : Value := accumulateBytes rb.reverse 0 0

/-- PARSE on its effective operand (R94): too few bytes (R91), too many (R92), else the Value (R93). -/
def parseOperand (o : Operand) : Except CodecError Result :=
  if o.len.toNat < Config.rawLen then .error .truncatedInput
  else if Config.rawLen < o.len.toNat then .error .illegalCommand
  else .ok (valueResult (parseValue (rawBytes o.data)))

/-- PARSE (R94). -/
def execParse (src : OperandSource) (len : Len) (data : Wide) (s : State) : Host.Outcome State Fault Refusal :=
  .next (runOperation parseOperand src len data s)

end Sys2Proof.Machine
end

