-- ==== Sys2Proof/Machine/Reserved.lean ====
section
/-! DEFINITION. The reserved words (30_encoding.md R76): each ends in IllegalCommand and has no other effect. The check comes
before `src` is looked at (60_exceptions.md R167), and no other field is examined. -/

namespace Sys2Proof.Machine

/-- RESERVED_OP3: a word with `op = 3` (R76, R164 a). -/
def execReservedOp3 (s : State) : Host.Outcome State Fault Refusal := .next (raise .illegalCommand s)

/-- RESERVED_RSV1: a word with `rsv = 1`, whatever `op` is (R76, R164 a). -/
def execReservedRsv1 (s : State) : Host.Outcome State Fault Refusal := .next (raise .illegalCommand s)

end Sys2Proof.Machine
end

