-- ==== Sys2Proof/Machine/VarintDecoder.lean ====
section
/-! DEFINITION. DECODE, the varint decoder (42_decode.md R120 to R131), in the packed view that defines it, and the two
other listings of the same function: the byte-sequence view (R129) and the loop that stops on zero (R130). -/

namespace Sys2Proof.Machine

/-- Chunk extraction (R124): as many passes as the length says; each takes the low 7 bits and shifts right by 8. -/
def extractChunks : Nat → Wide → List Chunk
  | 0, _ => []
  | passes + 1, rem => rem.setWidth 7 :: extractChunks passes (rem >>> Config.byteW)

/-- The reassembly loop of R125 over the chunks still to visit: `result += chunk << (pos * 7)`. The accumulator is an exact
natural number: R121 asks for "at least 70 bits", so that nothing is lost (DEDUCED, log 7; safe). -/
def reassemble : List Chunk → Nat → Nat → Nat
  | [], _, result => result
  | c :: rest, pos, result => reassemble rest (pos + 1) (result + (c.toNat <<< (pos * Config.chunkW)))

/-- Value reassembly (R125): last-extracted chunk first, from `pos = 0`. -/
def reassembleChunks (chunks : List Chunk) : Nat := reassemble chunks.reverse 0 0

/-- The number that a packed VarintBuffer of `n` bytes stands for, before the test of R127 (R124, R125). Bit 7 of a byte is
never read (R126), nor anything above byte `n-1` (R120). -/
def decodeNat (n : Nat) (data : Wide) : Nat := reassembleChunks (extractChunks n (packedForm n data))

/-- DECODE on its effective operand (R129): the empty buffer (R122), more than 10 bytes (R123), a value that does not fit
(R127), else the Value (R128). -/
def decodeOperand (o : Operand) : Except CodecError Result :=
  let n := o.len.toNat
  if n < Config.minChunks then .error .illegalCommand
  else if Config.maxChunks < n then .error .oversizedDecodeInput
  else if 2 ^ 64 ≤ decodeNat n o.data then .error .oversizedDecodeInput
  else .ok (valueResult (BitVec.ofNat 64 (decodeNat n o.data)))

/-- DECODE (R129). -/
def execDecode (src : OperandSource) (len : Len) (data : Wide) (s : State) : Host.Outcome State Fault Refusal :=
  .next (runOperation decodeOperand src len data s)

/-- The second listing of R129, on the byte sequence: `result += (VB[i] & 0x7F) << (7*i)`, from `i` up. -/
def decodeByteSequence : List Byte → Nat → Nat → Nat
  | [], _, result => result
  | b :: rest, i, result => decodeByteSequence rest (i + 1) (result + ((b &&& 0x7F).toNat <<< (7 * i)))

/-- The extraction loop that R130 compares with: it stops when the remaining packed input is 0. The first argument bounds
the passes; 10 are enough for 80 bits. It is not what DECODE does (log 8). -/
def extractUntilZero : Nat → Wide → List Chunk
  | 0, _ => []
  | passes + 1, rem =>
    if rem = 0 then [] else rem.setWidth 7 :: extractUntilZero passes (rem >>> Config.byteW)

/-- The number a decoder that has only `P`, and stops on zero, would find (R130). -/
def decodeNatUntilZero (data : Wide) : Nat := reassembleChunks (extractUntilZero Config.maxChunks data)

end Sys2Proof.Machine
end

