-- ==== Sys2Proof/Machine/VarintEncoder.lean ====
section
/-! DEFINITION. ENCODE, the varint encoder (41_encode.md R100 to R110). -/

namespace Sys2Proof.Machine

/-- The continuation bit, bit 7 of a byte (R64). -/
def continuationMask : Byte := 1#8 <<< Config.contBit

/-- One pass of the chunking loop (R102, R103): the low 7 bits of `rem`, with the continuation bit when bits remain
after the shift. The test is on the shifted `rem`, not on the chunk. -/
def chunkByte (rem : Value) : Byte :=
  let b := (rem &&& 0x7F).setWidth 8
  if rem >>> Config.chunkW ≠ 0 then b ||| continuationMask else b

/-- The chunking loop (R102): while `rem` is not 0, append `chunkByte rem` and shift right by 7. The first argument bounds
the passes; 10 are enough for 64 bits (R106; DEDUCED, log 8; safe: Laws/Codec.lean proves that `rem` is then 0). -/
def chunkLoop : Nat → Value → List Byte
  | 0, _ => []
  | passes + 1, rem =>
    if rem = 0 then [] else chunkByte rem :: chunkLoop passes (rem >>> Config.chunkW)

/-- The zero value (R105): an empty working list becomes `[0x00]`. -/
def fixZero : List Byte → List Byte
  | [] => [0x00]
  | b :: rest => b :: rest

/-- The VarintBuffer of a Value as a byte sequence, in extraction order, `VB[i] = W[i]` (R104). -/
def encodeValue (v : Value) : List Byte := fixZero (chunkLoop Config.maxChunks v)

/-- The packed form (R104): `P = sum of zext_80(W[i]) << (8*(n-1-i))`; the bytes after `W[i]` number `n-1-i`. -/
def pack : List Byte → Wide
  | [] => 0
  | b :: rest => (b.setWidth 80 <<< (Config.byteW * rest.length)) + pack rest

/-- A VarintBuffer as a result (R67, R107). -/
def varintResult (vb : List Byte) : Result := { len := BitVec.ofNat 4 vb.length, data := pack vb }

/-- ENCODE on its effective operand: `elen` and `edata[79:64]` are ignored, and no value is an error (R100, R107). -/
def encodeOperand (o : Operand) : Except CodecError Result :=
  .ok (varintResult (encodeValue (valueField o.data)))

/-- ENCODE (R109). -/
def execEncode (src : OperandSource) (len : Len) (data : Wide) (s : State) : Host.Outcome State Fault Refusal :=
  .next (runOperation encodeOperand src len data s)

/-- `bit_length(v)` (00_scope.md R11): the index of the highest set bit plus 1, and 0 for 0. -/
def bitLength (v : Value) : Nat := if v = 0 then 0 else Nat.log2 v.toNat + 1

end Sys2Proof.Machine
end

