-- ==== Sys2Proof/Machine/Dispatch.lean ====
section
/-! DEFINITION. One arm per constructor of Instr (43_arithmetic_and_laws.md R150). -/

namespace Sys2Proof.Machine

def exec (i : Instr) (s : State) : Host.Outcome State Fault Refusal :=
  match i with
  | .parse src len data => Sys2Proof.Machine.execParse src len data s
  | .encode src len data => Sys2Proof.Machine.execEncode src len data s
  | .decode src len data => Sys2Proof.Machine.execDecode src len data s
  | .reservedOp3 _ _ _ _ => Sys2Proof.Machine.execReservedOp3 s
  | .reservedRsv1 _ _ _ _ => Sys2Proof.Machine.execReservedRsv1 s

end Sys2Proof.Machine
end

