-- ==== Sys2Proof/Machine/Step.lean ====
section
/-! DEFINITION. One step: the host's next action is carried out (10_state.md R20). -/

namespace Sys2Proof.Machine

/-- One step. A word the host issues is decoded and executed, atomically (R150). A read changes nothing (R21). A reset
zeroes the registers, and one that arrives inside a command abandons it and does the same (R190; log 4). With no action pending the registers hold their values (R21; DESIGN CHOICE that such a step
answers the same state, log 2). -/
def step (s : State) : Host.Outcome State Fault Refusal :=
  match s.nextAction with
  | none => .next s
  | some (.issue w, s') => exec (decode w) s'
  | some (.read, s') => .next s'
  | some (.reset, s') => .next s'.assertReset
  | some (.abandon _, s') => .next s'.assertReset

/-- `s` with the table word issued by the host before everything else it has listed: the very next step runs exactly that
instruction. A program comes to the block from outside, word by word (R26, R200; log 3). -/
def State.withFetchWord (s : State) (nbits w : Nat) : State := s.issueFirst (tableWord nbits w)

end Sys2Proof.Machine
end

