-- ==== Sys2Proof/Machine/Assembler.lean ====
section
/-! DEFINITION. The assembler (30_encoding.md R80 to R82): from a line to its command words, and from text to lines. What
R80 leaves open (the case of letters, blanks, an empty line) is log 12. -/

namespace Sys2Proof.Machine

/-! ## From a line to its words -/

/-- The listed bytes on their lanes from `RB[i]` up, every other lane 0 (R61, R80). -/
def placeRaw : List Byte → Nat → Wide
  | [], _ => 0
  | b :: rest, i => (b.setWidth 80 <<< (56 - 8 * i)) + placeRaw rest (i + 1)

/-- The word of a command that forwards: `src=1, rsv=0, len=0, data=0` (R80). -/
def forwardWord (op : BitVec 2) : CommandWord := assembleWord op .results 0 0 0

/-- The word of a command that carries its operand: `src=0, rsv=0` (R80). -/
def operandWord (op : BitVec 2) (len : Nat) (data : Wide) : CommandWord :=
  assembleWord op .command 0 (BitVec.ofNat 4 len) data

/-- The words of a line, each field as R80's table gives it; RTRIP is its three commands (R81). -/
def lineWords : AsmLine → List CommandWord
  | .parse n bytes => [operandWord 0 n (placeRaw bytes 0)]
  | .parseRes => [forwardWord 0]
  | .encode v => [operandWord 1 0 (BitVec.ofNat 80 v)]
  | .encodeRes => [forwardWord 1]
  | .decode bytes => [operandWord 2 bytes.length (pack bytes)]
  | .decodeRaw n p => [operandWord 2 n (BitVec.ofNat 80 p)]
  | .decodeRes => [forwardWord 2]
  | .word w => [BitVec.ofNat 88 w]
  | .rtrip bytes => [operandWord 0 Config.rawLen (placeRaw bytes 0), forwardWord 1, forwardWord 2]

/-- The assembler: the words of a line, or nothing for a line that R80 does not admit. -/
def assemble (line : AsmLine) : Option (List CommandWord) :=
  if line.wellFormed then some (lineWords line) else none

/-! ## From text to lines -/

/-- The value of a hexadecimal digit, in either case. -/
def hexDigit (c : Char) : Option Nat :=
  let k := c.toNat
  if 48 ≤ k ∧ k ≤ 57 then some (k - 48)
  else if 65 ≤ k ∧ k ≤ 70 then some (k - 55)
  else if 97 ≤ k ∧ k ≤ 102 then some (k - 87)
  else none

/-- Digits to a number, in a base, after those already read. -/
def readDigits (base : Nat) : List Char → Nat → Option Nat
  | [], acc => some acc
  | c :: rest, acc =>
    match hexDigit c with
    | none => none
    | some d => if d < base then readDigits base rest (acc * base + d) else none

/-- A number: decimal, or hexadecimal with `0x` (R80). -/
def readNumber : List Char → Option Nat
  | [] => none
  | '0' :: 'x' :: d :: rest => readDigits 16 (d :: rest) 0
  | d :: rest => readDigits 10 (d :: rest) 0

/-- A byte of a list: two hexadecimal digits without a marker in front (R80). -/
def readByte : List Char → Option Byte
  | [a, b] =>
    match hexDigit a, hexDigit b with
    | some x, some y => some (BitVec.ofNat 8 (16 * x + y))
    | _, _ => none
  | _ => none

/-- A list of bytes, or nothing if one of them is not a byte. -/
def readBytes : List (List Char) → Option (List Byte)
  | [] => some []
  | t :: rest =>
    match readByte t, readBytes rest with
    | some b, some bs => some (b :: bs)
    | _, _ => none

/-- What stands before the first `;`, which starts a comment (R80). -/
def dropComment : List Char → List Char
  | [] => []
  | c :: rest => if c = ';' then [] else c :: dropComment rest

/-- A word in the making, read from its end, as a list of at most one token. -/
def flushToken (cur : List Char) : List (List Char) := if cur.isEmpty then [] else [cur.reverse]

/-- The tokens of a line: words between blanks; `:` and `,` are tokens of their own. -/
def tokenize : List Char → List Char → List (List Char)
  | [], cur => flushToken cur
  | c :: rest, cur =>
    if c = ' ' ∨ c = '\t' ∨ c = '\r' then flushToken cur ++ tokenize rest []
    else if c = ':' ∨ c = ',' then flushToken cur ++ [c] :: tokenize rest []
    else tokenize rest (c :: cur)

/-- The word that stands for the result registers (R80). -/
def resToken : List Char := ['R', 'E', 'S']

/-- The operands of `PARSE`. -/
def readParse : List (List Char) → Option AsmLine
  | [r] => if r = resToken then some .parseRes else none
  | n :: [':'] :: bytes =>
    match readNumber n, readBytes bytes with
    | some k, some bs => some (.parse k bs)
    | _, _ => none
  | _ => none

/-- The operands of `ENCODE`. -/
def readEncode : List (List Char) → Option AsmLine
  | [r] => if r = resToken then some .encodeRes else (readNumber r).map .encode
  | _ => none

/-- The operands of `DECODE`: a comma after the first marks the raw form. -/
def readDecode : List (List Char) → Option AsmLine
  | [n, [','], p] =>
    match readNumber n, readNumber p with
    | some k, some q => some (.decodeRaw k q)
    | _, _ => none
  | args => if args = [resToken] then some .decodeRes else (readBytes args).map .decode

/-- The operand of `.cw`. -/
def readWord : List (List Char) → Option AsmLine
  | [w] => (readNumber w).map .word
  | _ => none

/-- A line's tokens: no line at all, one line, or a syntax error. -/
def readTokens : List (List Char) → Option (List AsmLine)
  | [] => some []
  | m :: args =>
    if m = ['P', 'A', 'R', 'S', 'E'] then (readParse args).map ([·])
    else if m = ['E', 'N', 'C', 'O', 'D', 'E'] then (readEncode args).map ([·])
    else if m = ['D', 'E', 'C', 'O', 'D', 'E'] then (readDecode args).map ([·])
    else if m = ['R', 'T', 'R', 'I', 'P'] then ((readBytes args).map .rtrip).map ([·])
    else if m = ['.', 'c', 'w'] then (readWord args).map ([·])
    else none

/-- The lines of a text. -/
def splitLines : List Char → List Char → List (List Char)
  | [], cur => [cur.reverse]
  | c :: rest, cur => if c = '\n' then cur.reverse :: splitLines rest [] else splitLines rest (c :: cur)

/-- The words of several lines, or nothing if one of them is not a line of R80. -/
def assembleLines : List (List Char) → Option (List CommandWord)
  | [] => some []
  | line :: rest =>
    match readTokens (tokenize (dropComment line) []), assembleLines rest with
    | some [], some ws => some ws
    | some [l], some ws => (assemble l).map (· ++ ws)
    | _, _ => none

/-- A program text, one command per line (R80). -/
def assembleText (text : List Char) : Option (List CommandWord) := assembleLines (splitLines text [])

end Sys2Proof.Machine
end

