-- ==== Sys2Proof/Machine/Run.lean ====
section
/-! DEFINITION. Runs and traces (70_reset_and_hazards.md R200), and several blocks side by side (60_exceptions.md R176). -/

namespace Sys2Proof.Machine

/-- A run: the commands of a list, one after the completion of the one before (R26, R200). -/
def runWords : List CommandWord → State → Host.Outcome State Fault Refusal
  | [], s => .next s
  | w :: rest, s =>
    match exec (decode w) s with
    | .next t => runWords rest t
    | .fault r => .fault r
    | .refused r => .refused r

/-- The observable trace of a run: the triple after each command (R200). -/
def traceWords : List CommandWord → State → List Response
  | [], _ => []
  | w :: rest, s =>
    match exec (decode w) s with
    | .next t => t.response :: traceWords rest t
    | .fault _ => []
    | .refused _ => []

/-- One step of block `k` of a system of blocks: "`k` independent copies of the model of one", which share nothing and send
each other nothing (R176). A number that names no block moves nothing (DESIGN CHOICE, log 13; safe). -/
def stepBlock (k : Nat) (blocks : List State) : Host.Outcome (List State) Fault Refusal :=
  match blocks[k]? with
  | none => .next blocks
  | some s =>
    match step s with
    | .next t => .next (blocks.set k t)
    | .fault r => .fault r
    | .refused r => .refused r

end Sys2Proof.Machine
end

