-- ==== Sys2Proof/Safety.lean ====
section
/-! DEFINITION. What a sound state and a safe run are, in the terms the statements use. -/

namespace Sys2Proof.Machine

/-- What `RES_LEN` and `RES_DATA` hold beside an `OK` (R23, R24): 1 to 10 valid bytes, and zeros above them. -/
abbrev State.HoldsResult (s : State) : Prop :=
  Config.minChunks ≤ s.resLen.toNat ∧ s.resLen.toNat ≤ Config.maxChunks ∧
    s.resData.toNat < 2 ^ (Config.byteW * s.resLen.toNat)

/-- What the register triple looks like in every state of a run (R22, R23, R24, R31, R166): the status is one of the five
codes; beside `OK` the other two hold a result; beside any other code both are 0. -/
abbrev State.Inv (s : State) : Prop :=
  s.resStatus ≤ statusLast ∧
    (s.resStatus = statusOk → s.HoldsResult) ∧
    (s.resStatus ≠ statusOk → s.resLen = 0 ∧ s.resData = 0)

/-- A safe step: it answers a next state, never a fault or a refusal, and that state is sound (R150, R200). -/
abbrev SafeStep (s : State) : Prop := ∃ t, step s = .next t ∧ t.Inv

/-- A command may take its operand: it carries one, or the last command ended `OK` (R75). -/
abbrev OperandReady (src : OperandSource) (s : State) : Prop :=
  src = .command ∨ s.resStatus = statusOk

/-- The effective length of a command whose operand is ready (R75). -/
def effectiveLen (src : OperandSource) (len : Len) (s : State) : Len :=
  match src with
  | .command => len
  | .results => s.resLen

/-- The effective data of a command whose operand is ready (R75). -/
def effectiveData (src : OperandSource) (data : Wide) (s : State) : Wide :=
  match src with
  | .command => data
  | .results => s.resData

/-! ## The closed forms of the rules, written without the loops of the meanings -/

/-- The next state of a command of `s` that leaves this response and nothing else (R150). -/
def State.after (s : State) (status : StatusWord) (len : Len) (data : Wide) : State :=
  { resStatus := status, resLen := len, resData := data, pending := s.pending }

/-- `sum of RB[i] * 2^(8*(7-i))`, with `RB[i] = data[63-8i : 56-8i]` (R93, R61). -/
def bigEndianSum (data : Wide) : Nat :=
  ∑ i ∈ Finset.range 8, (data.extractLsb' (56 - 8 * i) 8).toNat * 2 ^ (8 * (7 - i))

/-- `ceil(bit_length(v)/7)` for `v > 0`, and 1 for 0 (R146). -/
def varintLength (v : Value) : Nat := if v = 0 then 1 else (bitLength v + 6) / 7

/-- Byte `i` of the VarintBuffer of `v`: the chunk `v[7i+6:7i]`, and 128 on every byte but the last (R66, R65). -/
def varintByteNat (v : Value) (i : Nat) : Nat :=
  v.toNat / 2 ^ (7 * i) % 2 ^ 7 + if i + 1 < varintLength v then 2 ^ 7 else 0

/-- `P = sum of VB[i] << (8*(n-1-i))` for the VarintBuffer of `v` (R67). -/
def packedNat (v : Value) : Nat :=
  ∑ i ∈ Finset.range (varintLength v), varintByteNat v i * 2 ^ (8 * (varintLength v - 1 - i))

/-- `sum of VB[i][6:0] << (7*i)`, with `VB[i] = data[8(n-1-i)+7 : 8(n-1-i)]` (R125, R67). -/
def chunkSum (n : Nat) (data : Wide) : Nat :=
  ∑ i ∈ Finset.range n, (data.extractLsb' (8 * (n - 1 - i)) 7).toNat * 2 ^ (7 * i)

end Sys2Proof.Machine
end

