-- ==== Sys2Proof/Certificates/Slice0/Obligations.lean ====
section
/-! DEFINITION. The statements for the provers. Each docstring names the rules of spec/ it formalises; a clause that rests on
a choice of the model says so and names the log entry. -/

open Sys2Proof Sys2Proof.Machine

/-! ## Reset, the host's actions, the step -/

/-- R31: `RES_STATUS`, `RES_LEN` and `RES_DATA` are 0 after reset. -/
def Obligations.ResetLeavesAllRegistersZero : Prop :=
  State.reset.resStatus = 0 ∧ State.reset.resLen = 0 ∧ State.reset.resData = 0

/-- R190: reset, an action of the host between any two commands, clears the three registers and nothing else; a reset that
arrives while a command executes leaves the same state, without a response of that command. -/
def Obligations.ResetActionClearsTheRegisters : Prop :=
  ∀ (s : State) (rest : List HostAction),
    step { s with pending := HostAction.reset :: rest }
      = .next { resStatus := 0, resLen := 0, resData := 0, pending := rest } ∧
    ∀ w, step { s with pending := HostAction.abandon w :: rest }
      = .next { resStatus := 0, resLen := 0, resData := 0, pending := rest }

/-- R21: a read has no side effect, and the registers hold their values until the next command or reset. That a step with
nothing pending answers the same state is the model's choice (log 2). -/
def Obligations.ReadsAndIdleStepsChangeNoRegister : Prop :=
  (∀ (s : State) (rest : List HostAction),
    step { s with pending := HostAction.read :: rest } = .next { s with pending := rest }) ∧
  ∀ s : State, s.pending = [] → step s = .next s

/-- R150, R20: when the host's next action is a word that decodes to `i`, the step is `exec i` on the state with that action
taken from the host's list (the list is the model's field, log 1). -/
def Obligations.StepRunsTheDecodedInstruction : Prop :=
  ∀ (s : State) (w : CommandWord) (rest : List HostAction) (i : Instr),
    s.pending = HostAction.issue w :: rest → decode w = i → step s = exec i { s with pending := rest }

/-- The table word: the decoder reads it, and the step after `withFetchWord` runs it (R71, R78; log 3, log 6). -/
def Obligations.FetchedTableWordIsDecodedAndRun : Prop :=
  ∀ (s : State) (w : CommandWord),
    decodeTableWord 88 w.toNat = some (decode w) ∧ step (s.withFetchWord 88 w.toNat) = exec (decode w) s

/-- R150: every word in every state has a next state; the host's list is the only thing a command leaves alone. -/
def Obligations.EveryCommandAndStepCompletes : Prop :=
  (∀ (i : Instr) (s : State), ∃ t, exec i s = .next t ∧ t.pending = s.pending) ∧
  ∀ s : State, ∃ t, step s = .next t

/-- R21: nothing but a command or reset writes the result registers; each step takes one action from the host's list (the
list is the model's field, log 1). -/
def Obligations.OnlyCommandsAndResetWriteTheRegisters : Prop :=
  ∀ s t : State, step s = .next t →
    t.pending = s.pending.tail ∧
    (t.response ≠ s.response →
      (∃ w, s.pending.head? = some (HostAction.issue w)) ∨ s.pending.head? = some HostAction.reset ∨
        ∃ w, s.pending.head? = some (HostAction.abandon w))

/-! ## Decoding -/

/-- R82's words, written out, decode to the commands it names; and one word of each reserved row (R76). -/
def Obligations.WrittenWordsDecodeAsListed : Prop :=
  decode 0x0800000000000000000096#88 = .parse .command 8 0x96 ∧
  decode 0x2000000000000000000000#88 = .parse .results 0 0 ∧
  decode 0x4000000000000000000096#88 = .encode .command 0 0x96 ∧
  decode 0x6000000000000000000000#88 = .encode .results 0 0 ∧
  decode 0x8200000000000000009601#88 = .decode .command 2 0x9601 ∧
  decode 0xA000000000000000000000#88 = .decode .results 0 0 ∧
  decode 0xE500000000000000000007#88 = .reservedOp3 .results false 5 7 ∧
  decode 0x5000000000000000000096#88 = .reservedRsv1 1 .command 0 0x96

/-- Decoding the word of a well-formed instruction gives it back: no bit of an encoding is dropped (R71, R78). -/
def Obligations.DecodeOfEncodeIsTheInstruction : Prop :=
  ∀ i : Instr, i.wellFormed → decode (encode i) = i

/-- Every word decodes to a well-formed instruction whose word it is (R78: the decoder is total). -/
def Obligations.EncodeOfDecodeIsTheWord : Prop :=
  ∀ w : CommandWord, (decode w).wellFormed ∧ encode (decode w) = w

/-- R78: the match and mask values, the two illegal patterns first; which of the two names a word that has both gets is the
model's choice (log 5). `src`, `len` and `data` are bits 85, 83:80 and 79:0. -/
def Obligations.DecoderAgreesWithMatchAndMask : Prop :=
  ∀ w : CommandWord,
    (w &&& 0xD000000000000000000000#88 = 0x0000000000000000000000#88 ↔
      decode w = .parse (if w.getLsbD 85 then .results else .command) (w.extractLsb' 80 4) (w.extractLsb' 0 80)) ∧
    (w &&& 0xD000000000000000000000#88 = 0x4000000000000000000000#88 ↔
      decode w = .encode (if w.getLsbD 85 then .results else .command) (w.extractLsb' 80 4) (w.extractLsb' 0 80)) ∧
    (w &&& 0xD000000000000000000000#88 = 0x8000000000000000000000#88 ↔
      decode w = .decode (if w.getLsbD 85 then .results else .command) (w.extractLsb' 80 4) (w.extractLsb' 0 80)) ∧
    (w &&& 0x1000000000000000000000#88 = 0x1000000000000000000000#88 ↔
      ∃ op src len data, decode w = .reservedRsv1 op src len data) ∧
    (w &&& 0xC000000000000000000000#88 = 0xC000000000000000000000#88 ∧
        ¬ w &&& 0x1000000000000000000000#88 = 0x1000000000000000000000#88 ↔
      ∃ src len data, decode w = .reservedOp3 src false len data)

/-- R78: every word has the fixed bits of exactly one operation's row or of at least one reserved row, and its instruction's
row is among them. -/
def Obligations.EveryWordMatchesItsTableRow : Prop :=
  ∀ w : CommandWord,
    (∃ r ∈ opcodeTable, r.hits w ∧ r.mnemonic = (decode w).mnemonic) ∧
    ∀ r ∈ opcodeTable, ∀ q ∈ opcodeTable, r.hits w → q.hits w → r ≠ q →
      r.mnemonic ∈ ["RESERVED_OP3", "RESERVED_RSV1"] ∧ q.mnemonic ∈ ["RESERVED_OP3", "RESERVED_RSV1"]

/-- R71: a word written as 11 bytes, most significant first, is read as that word, and what follows it is left; byte 0 is the
header byte. A shorter string is rejected by name (the model's choice, log 15). -/
def Obligations.ElevenBytesReadAsTheirWord : Prop :=
  (∀ (w : CommandWord) (rest : List Byte),
    decodeBytes (bytesOfWord w ++ rest) = .ok (decode w, rest) ∧
    (bytesOfWord w).head? = some (w.extractLsb' 80 8)) ∧
  ∀ bytes : List Byte, bytes.length < 11 → decodeBytes bytes = .error (.truncatedCommand bytes.length)

/-! ## The register triple -/

/-- R31, R22 to R24: the invariant holds at reset. -/
def Obligations.ResetStateIsSound : Prop := State.reset.Inv

/-- R22, R23, R24, R166, R170: whatever the state before it, a command leaves a sound triple, and never status 0. -/
def Obligations.EveryCommandLeavesASoundTriple : Prop :=
  ∀ (i : Instr) (s : State), ∃ t, exec i s = .next t ∧ t.Inv ∧ t.resStatus ≠ 0

/-- R200, R22 to R24: a step from a sound state answers a next state, and that state is sound. -/
def Obligations.StepKeepsTheTripleSound : Prop :=
  ∀ s : State, s.Inv → SafeStep s

/-! ## PARSE -/

/-- R91: fewer than 8 bytes; the outcome does not depend on any byte lane. -/
def Obligations.ParseOfTooFewBytesIsTruncated : Prop :=
  ∀ (src : OperandSource) (len : Len) (data : Wide) (s : State),
    OperandReady src s → (effectiveLen src len s).toNat < 8 →
    exec (.parse src len data) s = .next (s.after 2 0 0)

/-- R92: more than 8 bytes. -/
def Obligations.ParseOfTooManyBytesIsIllegal : Prop :=
  ∀ (src : OperandSource) (len : Len) (data : Wide) (s : State),
    OperandReady src s → 8 < (effectiveLen src len s).toNat →
    exec (.parse src len data) s = .next (s.after 4 0 0)

/-- R93, R94: 8 bytes complete with the big-endian sum of the byte lanes, which needs no more than 64 bits (R141). -/
def Obligations.ParseGivesTheBigEndianSum : Prop :=
  ∀ (src : OperandSource) (len : Len) (data : Wide) (s : State),
    OperandReady src s → effectiveLen src len s = 8 →
    exec (.parse src len data) s
      = .next (s.after 1 8 (BitVec.ofNat 80 (bigEndianSum (effectiveData src data s)))) ∧
    bigEndianSum (effectiveData src data s) < 2 ^ 64

/-- R93's remark: with R61's placement the result is `edata[63:0]`; bits 79:64 of the result are 0 (R24, R62). -/
def Obligations.ParseIsWiring : Prop :=
  ∀ (src : OperandSource) (len : Len) (data : Wide) (s : State),
    OperandReady src s → effectiveLen src len s = 8 →
    exec (.parse src len data) s
      = .next (s.after 1 8 (((effectiveData src data s).extractLsb' 0 64).setWidth 80))

/-- R144: PARSE is a bijection between RawBytes and Values; its inverse takes byte `7-i` of the Value as `RB[i]`. -/
def Obligations.ParseIsABijection : Prop :=
  (∀ v : Value, parseValue ((List.range 8).map fun i => v.extractLsb' (8 * (7 - i)) 8) = v) ∧
  ∀ rb : List Byte, rb.length = 8 →
    (List.range 8).map (fun i => (parseValue rb).extractLsb' (8 * (7 - i)) 8) = rb

/-- R94, R197: `PARSE RES` on a Value gives the same response again. -/
def Obligations.ParseOfAForwardedValueIsIdentity : Prop :=
  ∀ (len : Len) (data : Wide) (s : State),
    s.resStatus = 1 → s.resLen = 8 → s.resData.toNat < 2 ^ 64 → exec (.parse .results len data) s = .next s

/-! ## ENCODE -/

/-- R105, R163: the zero value is a successful result, `[0x00]`. -/
def Obligations.EncodeOfZeroIsOneZeroByte : Prop :=
  encodeValue 0 = [0x00] ∧
  ∀ (src : OperandSource) (len : Len) (data : Wide) (s : State),
    OperandReady src s → (effectiveData src data s).extractLsb' 0 64 = 0 →
    exec (.encode src len data) s = .next (s.after 1 1 0)

/-- R107, with R66, R67 and R146: every Value completes, with its length and its packed form, which fits 80 bits (R106).
`len` and `data[79:64]` do not matter (R100). -/
def Obligations.EncodeGivesLengthAndPackedForm : Prop :=
  ∀ (src : OperandSource) (len : Len) (data : Wide) (s : State) (v : Value),
    OperandReady src s → (effectiveData src data s).extractLsb' 0 64 = v →
    exec (.encode src len data) s
      = .next (s.after 1 (BitVec.ofNat 4 (varintLength v)) (BitVec.ofNat 80 (packedNat v))) ∧
    varintLength v ≤ 10 ∧ packedNat v < 2 ^ (8 * varintLength v)

/-- R102, R103: the working list. Pass `k` appends the chunk `v[7k+6:7k]`, with bit 7 set exactly when bits remain after the
shift; the loop stops when nothing remains; the last byte is not 0. -/
def Obligations.WorkingListFollowsChunkingRule : Prop :=
  ∀ v : Value,
    (∀ k b, (chunkLoop 10 v)[k]? = some b →
      b = (v.extractLsb' (7 * k) 7).setWidth 8 ||| (if v >>> (7 * (k + 1)) = 0 then 0x00 else 0x80)) ∧
    v >>> (7 * (chunkLoop 10 v).length) = 0 ∧
    (∀ k < (chunkLoop 10 v).length, v >>> (7 * k) ≠ 0) ∧
    (chunkLoop 10 v).getLast? ≠ some 0

/-- R65, R147: the continuation bits of every ENCODE result, in the byte sequence and in the packed form. -/
def Obligations.ContinuationBitOnEveryByteButTheLast : Prop :=
  ∀ v : Value,
    (∀ i b, (encodeValue v)[i]? = some b → b.getLsbD 7 = decide (i + 1 < (encodeValue v).length)) ∧
    ∀ k < (encodeValue v).length, (pack (encodeValue v)).getLsbD (8 * k + 7) = decide (0 < k)

/-- R69: a VarintBuffer is self-delimiting: whatever follows it in a byte sequence, it ends at the first byte whose bit 7
is 0. -/
def Obligations.EncodedBufferIsSelfDelimiting : Prop :=
  ∀ (v : Value) (rest : List Byte),
    (encodeValue v ++ rest).findIdx? (fun b => !b.getLsbD 7) = some ((encodeValue v).length - 1)

/-- R146: the length formula and its thresholds. -/
def Obligations.EncodeLengthFormulaAndThresholds : Prop :=
  ∀ v : Value,
    (encodeValue v).length = varintLength v ∧
    (∀ k, 1 ≤ k → ((encodeValue v).length ≤ k ↔ v.toNat < 2 ^ (7 * k) ∨ 10 ≤ k))

/-- R106: at most 10 bytes; 10 exactly from 2^63 on, and then the tenth is 0x01; the packed form loses nothing in 80 bits. -/
def Obligations.EncodeNeverExceedsTenBytes : Prop :=
  ∀ v : Value,
    (encodeValue v).length ≤ 10 ∧
    ((encodeValue v).length = 10 ↔ 2 ^ 63 ≤ v.toNat) ∧
    (2 ^ 63 ≤ v.toNat → (encodeValue v)[9]? = some 0x01) ∧
    (pack (encodeValue v)).toNat = (encodeValue v).foldl (fun acc b => acc * 256 + b.toNat) 0

/-- R108: a Value has one VarintBuffer, and different Values have different ones. -/
def Obligations.DifferentValuesEncodeDifferently : Prop :=
  ∀ v w : Value, varintResult (encodeValue v) = varintResult (encodeValue w) ↔ v = w

/-- R110: for `v > 0` every byte of `P` is nonzero, and `RES_DATA` is 0 above byte `n-1`. -/
def Obligations.PackedFormHasNoZeroByte : Prop :=
  ∀ v : Value,
    (pack (encodeValue v)).toNat < 2 ^ (8 * (encodeValue v).length) ∧
    (v ≠ 0 → ∀ k < (encodeValue v).length, (pack (encodeValue v)).extractLsb' (8 * k) 8 ≠ 0)

/-- R102, R106, R152, R199: the bound on passes is never what ends a loop, so the loops are the rules' own. -/
def Obligations.LoopBoundsAreNeverReached : Prop :=
  ∀ k : Nat,
    (∀ v : Value, chunkLoop (10 + k) v = chunkLoop 10 v ∧ (v ≠ 0 → (chunkLoop 10 v).length = varintLength v)) ∧
    (∀ p : Wide, extractUntilZero (10 + k) p = extractUntilZero 10 p) ∧
    ∀ p : Wide, (extractChunks k p).length = k

/-! ## DECODE -/

/-- R122: the empty buffer. -/
def Obligations.DecodeOfNoByteIsIllegal : Prop :=
  ∀ (src : OperandSource) (len : Len) (data : Wide) (s : State),
    OperandReady src s → effectiveLen src len s = 0 →
    exec (.decode src len data) s = .next (s.after 4 0 0)

/-- R123: more than 10 chunks. -/
def Obligations.DecodeOfMoreThanTenBytesIsOversized : Prop :=
  ∀ (src : OperandSource) (len : Len) (data : Wide) (s : State),
    OperandReady src s → 11 ≤ (effectiveLen src len s).toNat →
    exec (.decode src len data) s = .next (s.after 3 0 0)

/-- R124, R125, R128: 1 to 10 bytes whose chunks fit 64 bits complete with the sum of the chunks at their 7-bit weights. -/
def Obligations.DecodeGivesTheChunkSum : Prop :=
  ∀ (src : OperandSource) (len : Len) (data : Wide) (s : State) (n : Nat),
    OperandReady src s → (effectiveLen src len s).toNat = n → 1 ≤ n → n ≤ 10 →
    chunkSum n (effectiveData src data s) < 2 ^ 64 →
    exec (.decode src len data) s
      = .next (s.after 1 8 (BitVec.ofNat 80 (chunkSum n (effectiveData src data s))))

/-- R127: a sum of 2^64 or more is an error, and happens exactly for 10 bytes whose tenth chunk is 2 or more. -/
def Obligations.DecodeOfAValueThatDoesNotFitIsOversized : Prop :=
  ∀ (src : OperandSource) (len : Len) (data : Wide) (s : State) (n : Nat),
    OperandReady src s → (effectiveLen src len s).toNat = n → 1 ≤ n → n ≤ 10 →
    (2 ^ 64 ≤ chunkSum n (effectiveData src data s) →
      exec (.decode src len data) s = .next (s.after 3 0 0)) ∧
    (2 ^ 64 ≤ chunkSum n (effectiveData src data s) ↔
      n = 10 ∧ 2 ≤ ((effectiveData src data s).extractLsb' 0 7).toNat)

/-- R126, R120: only the low 7 bits of the `n` bytes have an influence; continuation bits and what lies above do not. -/
def Obligations.DecodeReadsOnlyTheChunks : Prop :=
  ∀ (src : OperandSource) (len : Len) (data data' d' : Wide) (s : State),
    (∀ k < (effectiveLen src len s).toNat,
      (effectiveData src data s).extractLsb' (8 * k) 7
        = (effectiveData src data' { s with resData := d' }).extractLsb' (8 * k) 7) →
    exec (.decode src len data) s = exec (.decode src len data') { s with resData := d' }

/-- R129: its second listing, on the byte sequence, is the same function. -/
def Obligations.DecodeEqualsItsByteSequenceView : Prop :=
  ∀ (n : Nat) (data : Wide), n ≤ 10 →
    decodeNat n data = decodeByteSequence (varintBytes n data) 0 0

/-- R130: stopping on zero gives the same Value for every buffer that ENCODE produces, and another for `DECODE 00 96`. -/
def Obligations.StopOnZeroAgreesOnEncodedBuffers : Prop :=
  (∀ v : Value,
    decodeNatUntilZero (pack (encodeValue v)) = decodeNat (encodeValue v).length (pack (encodeValue v))) ∧
  decodeNat 2 0x0096 = 2816 ∧ decodeNatUntilZero 0x0096 = 22

/-- R141, R121: no accumulator loses a bit: reassembly stays below 2^70, packing equals the exact sum of bytes. -/
def Obligations.NoOperationWrapsAround : Prop :=
  (∀ (n : Nat) (data : Wide), n ≤ 10 → decodeNat n data < 2 ^ 70) ∧
  (∀ vb : List Byte, vb.length ≤ 10 → (pack vb).toNat = vb.foldl (fun acc b => acc * 256 + b.toNat) 0) ∧
  ∀ rb : List Byte, rb.length ≤ 8 → (parseValue rb).toNat = rb.foldl (fun acc b => acc * 256 + b.toNat) 0

/-- R143: in every `+=` of the three algorithms the term added has no set bit in common with the accumulator. -/
def Obligations.AddedTermsShareNoBit : Prop :=
  (∀ (before : List Byte) (b : Byte), before.length < 8 →
    accumulateBytes before 0 0 &&& (b.setWidth 64 <<< (before.length * 8)) = 0) ∧
  (∀ (after : List Byte) (b : Byte), after.length < 10 →
    pack after &&& (b.setWidth 80 <<< (8 * after.length)) = 0) ∧
  ∀ (before : List Chunk) (c : Chunk),
    reassemble before 0 0 &&& (c.toNat <<< (before.length * 7)) = 0

/-- R148, R70: DECODE is not injective: `80 00` and `00` give the same response. -/
def Obligations.DecodeAcceptsANonCanonicalZero : Prop :=
  ∀ s : State, exec (.decode .command 2 0x8000) s = exec (.decode .command 1 0x00) s ∧
    exec (.decode .command 2 0x8000) s = .next (s.after 1 8 0)

/-! ## Two views, and the round trip -/

/-- R67, R44: (`n`, `P`) and `VB[0..n-1]` are two views of one thing; byte `k` of `P` is `VB[n-1-k]`. -/
def Obligations.PackedFormAndByteSequenceAgree : Prop :=
  (∀ vb : List Byte, vb.length ≤ 10 →
    varintBytes vb.length (pack vb) = vb ∧
    ∀ k < vb.length, vb[vb.length - 1 - k]? = some ((pack vb).extractLsb' (8 * k) 8)) ∧
  ∀ (n : Nat) (data : Wide), n ≤ 10 → pack (varintBytes n data) = packedForm n data

/-- R45: the ten bytes of `RES_DATA`, most significant first: zeros, then the VarintBuffer in sequence order; after PARSE two
zeros, then the eight RawBytes in their original order. -/
def Obligations.HostSeesBytesInSequenceOrder : Prop :=
  (∀ v : Value,
    (List.range 10).map (fun k => (pack (encodeValue v)).extractLsb' (8 * (9 - k)) 8)
      = List.replicate (10 - (encodeValue v).length) 0 ++ encodeValue v) ∧
  ∀ rb : List Byte, rb.length = 8 →
    (List.range 10).map (fun k => ((parseValue rb).setWidth 80).extractLsb' (8 * (9 - k)) 8) = [0, 0] ++ rb

/-- R131: after an ENCODE of `v`, `DECODE RES` ends `OK` with `v`. -/
def Obligations.DecodeAfterEncodeRestoresTheValue : Prop :=
  ∀ (src : OperandSource) (len len' : Len) (data data' : Wide) (s : State),
    OperandReady src s →
    ∃ t, exec (.encode src len data) s = .next t ∧ t.resStatus = 1 ∧
      exec (.decode .results len' data') t
        = .next (s.after 1 8 (((effectiveData src data s).extractLsb' 0 64).setWidth 80))

/-- R145, R81: the program `RTRIP RB` ends `OK` with length 8 and the Value of its first command, from any state; and the
literal algorithm tells the two ways to pack 150 apart. -/
def Obligations.RoundTripProgramRestoresTheValue : Prop :=
  (decodeNat 2 0x9601 = 150 ∧ decodeNat 2 0x0196 = 2817) ∧
  ∀ (rb : List Byte) (s : State), rb.length = 8 →
    ∃ ws, assemble (.rtrip rb) = some ws ∧
      traceWords ws s =
        [ ⟨1, 8, (parseValue rb).setWidth 80⟩,
          ⟨1, BitVec.ofNat 4 (encodeValue (parseValue rb)).length, pack (encodeValue (parseValue rb))⟩,
          ⟨1, 8, (parseValue rb).setWidth 80⟩ ] ∧
      runWords ws s = .next (s.after 1 8 ((parseValue rb).setWidth 80))

/-- R148, R70: a buffer with right continuation bits, no zero last byte (but for `[0x00]`) and a value that fits is the
VarintBuffer of its value. -/
def Obligations.EncodeRestoresEveryCanonicalBuffer : Prop :=
  ∀ vb : List Byte,
    1 ≤ vb.length → vb.length ≤ 10 →
    (∀ i b, vb[i]? = some b → b.getLsbD 7 = decide (i + 1 < vb.length)) →
    (vb.getLast? = some 0 → vb.length = 1) →
    decodeNat vb.length (pack vb) < 2 ^ 64 →
    encodeValue (BitVec.ofNat 64 (decodeNat vb.length (pack vb))) = vb

/-- R197: `PARSE RES` after an ENCODE that left `n` bytes: short, a Value, or illegal; `ENCODE RES` after it encodes
`P[63:0]`. -/
def Obligations.IllTypedChainsAfterEncode : Prop :=
  ∀ (src : OperandSource) (len len' : Len) (data data' : Wide) (s : State),
    OperandReady src s →
    ∃ t v, exec (.encode src len data) s = .next t ∧ v = (effectiveData src data s).extractLsb' 0 64 ∧
      (varintLength v < 8 → exec (.parse .results len' data') t = .next (s.after 2 0 0)) ∧
      (varintLength v = 8 →
        exec (.parse .results len' data') t = .next (s.after 1 8 (BitVec.ofNat 80 (packedNat v)))) ∧
      (8 < varintLength v → exec (.parse .results len' data') t = .next (s.after 4 0 0)) ∧
      exec (.encode .results len' data') t
        = .next (s.after 1 (BitVec.ofNat 4 (varintLength (BitVec.ofNat 64 (packedNat v))))
            (BitVec.ofNat 80 (packedNat (BitVec.ofNat 64 (packedNat v)))))

/-! ## Forwarding, errors, illegal words -/

/-- R75, R151: a forwarded command is the same command with the registers' content in the word. -/
def Obligations.ForwardingTakesTheResultRegisters : Prop :=
  ∀ (len : Len) (data : Wide) (s : State), s.resStatus = 1 →
    exec (.parse .results len data) s = exec (.parse .command s.resLen s.resData) s ∧
    exec (.encode .results len data) s = exec (.encode .command s.resLen s.resData) s ∧
    exec (.decode .results len data) s = exec (.decode .command s.resLen s.resData) s

/-- R165: forwarding without a result is illegal, and the error goes down a forwarded chain. -/
def Obligations.ForwardingWithoutResultIsIllegal : Prop :=
  ∀ (len : Len) (data : Wide) (s : State), s.resStatus ≠ 1 →
    exec (.parse .results len data) s = .next (s.after 4 0 0) ∧
    exec (.encode .results len data) s = .next (s.after 4 0 0) ∧
    exec (.decode .results len data) s = .next (s.after 4 0 0) ∧
    traceWords [encode (.encode .results len data), encode (.decode .results len data)] s
      = [⟨4, 0, 0⟩, ⟨4, 0, 0⟩]

/-- R166: `raise E()` writes the code and two zeros, and an instruction that does not end `OK` has done exactly that. -/
def Obligations.ErrorEntryWritesOnlyTheErrorResponse : Prop :=
  (∀ s : State,
    raise .truncatedInput s = s.after 2 0 0 ∧ raise .oversizedDecodeInput s = s.after 3 0 0 ∧
    raise .illegalCommand s = s.after 4 0 0) ∧
  ∀ (i : Instr) (s t : State), exec i s = .next t → t.resStatus ≠ 1 → t = s.after t.resStatus 0 0

/-- R167, R170: the first cause that applies is reported, in the order illegal word, forwarding without a result, length,
value; and without a cause the command ends `OK`. -/
def Obligations.FirstCauseThatAppliesIsReported : Prop :=
  ∀ (w : CommandWord) (s : State), ∃ t, exec (decode w) s = .next t ∧
    t.resStatus =
      (let src : OperandSource := if w.getLsbD 85 then .results else .command
       let n := (effectiveLen src (w.extractLsb' 80 4) s).toNat
       if w.getLsbD 84 = true ∨ w.extractLsb' 86 2 = 3 then 4
       else if w.getLsbD 85 = true ∧ s.resStatus ≠ 1 then 4
       else if w.extractLsb' 86 2 = 0 then (if n < 8 then 2 else if 8 < n then 4 else 1)
       else if w.extractLsb' 86 2 = 1 then 1
       else if n = 0 then 4
       else if 11 ≤ n then 3
       else if 2 ^ 64 ≤ chunkSum n (effectiveData src (w.extractLsb' 0 80) s) then 3
       else 1)

/-- R76: a word with `op = 3` or `rsv = 1` completes with IllegalCommand and no other effect, whatever its other fields and
the state. -/
def Obligations.ReservedWordsEndInIllegalCommand : Prop :=
  (∀ (src : OperandSource) (rsv : Bool) (len : Len) (data : Wide) (s : State),
    exec (.reservedOp3 src rsv len data) s = .next (s.after 4 0 0)) ∧
  (∀ (op : BitVec 2) (src : OperandSource) (len : Len) (data : Wide) (s : State),
    exec (.reservedRsv1 op src len data) s = .next (s.after 4 0 0)) ∧
  ∀ (w : CommandWord) (s : State), (w.extractLsb' 86 2 = 3 ∨ w.getLsbD 84 = true) →
    exec (decode w) s = .next (s.after 4 0 0)

/-- R77: the fields an operation does not use change nothing. -/
def Obligations.UnusedFieldsChangeNothing : Prop :=
  ∀ (len len' : Len) (data data' : Wide) (s : State),
    (data.extractLsb' 0 64 = data'.extractLsb' 0 64 →
      exec (.encode .command len data) s = exec (.encode .command len' data') s ∧
      exec (.parse .command len data) s = exec (.parse .command len data') s) ∧
    (data.extractLsb' 0 (8 * len.toNat) = data'.extractLsb' 0 (8 * len.toNat) →
      exec (.decode .command len data) s = exec (.decode .command len data') s) ∧
    exec (.parse .results len data) s = exec (.parse .results len' data') s ∧
    exec (.encode .results len data) s = exec (.encode .results len' data') s ∧
    exec (.decode .results len data) s = exec (.decode .results len' data') s

/-- R149, R168: the response depends on the word, and on the registers only when the word forwards. In particular a command
that carries its operand runs after an error as if there had been none. -/
def Obligations.ResponseDependsOnWordAndForwardedRegistersOnly : Prop :=
  ∀ (w : CommandWord) (s s' : State), (w.getLsbD 85 = true → s.response = s'.response) →
    ∃ t t', exec (decode w) s = .next t ∧ exec (decode w) s' = .next t' ∧ t.response = t'.response

/-! ## Runs, several blocks, the assembler -/

/-- R200, R26: as many steps as words carry out the host's list in order, whatever it lists afterwards; a run always
completes, its trace has one triple per command, and the last triple is the final state's. -/
def Obligations.StepsCarryOutTheHostsList : Prop :=
  ∀ (ws : List CommandWord) (rest : List HostAction) (s : State),
    core.run ws.length { s with pending := ws.map HostAction.issue ++ rest }
      = runWords ws { s with pending := rest } ∧
    (traceWords ws s).length = ws.length ∧
    ∃ t, runWords ws s = .next t ∧ t.pending = s.pending ∧
      (traceWords ws s).getLastD s.response = t.response

/-- R176: a step of one block of several is that block's own step and touches no other, so steps of two blocks commute. -/
def Obligations.BlocksShareNothing : Prop :=
  ∀ (blocks : List State) (j k : Nat),
    (∀ s, blocks[k]? = some s → ∃ t, step s = .next t ∧ stepBlock k blocks = .next (blocks.set k t)) ∧
    (∃ after, stepBlock k blocks = .next after ∧ after.length = blocks.length ∧
      ∀ m, m ≠ k → after[m]? = blocks[m]?) ∧
    (j ≠ k → ∃ afterJ afterK both, stepBlock j blocks = .next afterJ ∧ stepBlock k blocks = .next afterK ∧
      stepBlock k afterJ = .next both ∧ stepBlock j afterK = .next both)

/-- R81: RTRIP is the three commands `PARSE 8: ...`, `ENCODE RES`, `DECODE RES`, in that order. -/
def Obligations.RoundTripPseudoInstructionExpands : Prop :=
  ∀ rb : List Byte, rb.length = 8 →
    ∃ w1 w2 w3, assemble (.parse 8 rb) = some [w1] ∧ assemble .encodeRes = some [w2] ∧
      assemble .decodeRes = some [w3] ∧ assemble (.rtrip rb) = some [w1, w2, w3]

/-- R80: the words of the assembler's lines, read back: each operand stands where R61, R62 and R67 place it, and every other
field is 0. -/
def Obligations.AssembledLinesReadBack : Prop :=
  (∀ (n : Nat) (bytes : List Byte), n < 16 → bytes.length = min n 8 →
    ∃ w data, assemble (.parse n bytes) = some [w] ∧ decode w = .parse .command (BitVec.ofNat 4 n) data ∧
      data.extractLsb' 64 16 = 0 ∧ rawBytes data = bytes ++ List.replicate (8 - bytes.length) 0) ∧
  (∀ v : Nat, v < 2 ^ 64 →
    ∃ w, assemble (.encode v) = some [w] ∧ decode w = .encode .command 0 (BitVec.ofNat 80 v)) ∧
  (∀ bytes : List Byte, bytes.length ≤ 10 →
    ∃ w data, assemble (.decode bytes) = some [w] ∧
      decode w = .decode .command (BitVec.ofNat 4 bytes.length) data ∧
      varintBytes bytes.length data = bytes ∧ data.toNat < 2 ^ (8 * bytes.length)) ∧
  (∀ n p : Nat, n < 16 → p < 2 ^ 80 →
    ∃ w, assemble (.decodeRaw n p) = some [w] ∧
      decode w = .decode .command (BitVec.ofNat 4 n) (BitVec.ofNat 80 p)) ∧
  (∃ w, assemble .parseRes = some [w] ∧ decode w = .parse .results 0 0) ∧
  (∃ w, assemble .encodeRes = some [w] ∧ decode w = .encode .results 0 0) ∧
  (∃ w, assemble .decodeRes = some [w] ∧ decode w = .decode .results 0 0) ∧
  ∀ w : CommandWord, assemble (.word w.toNat) = some [w]
end

