-- ==== Sys2Proof/Laws/State.lean ====
section
/-! SUPPORT. One lemma per field per update of State, and the cases of taking the host's next action. -/

namespace Sys2Proof.Machine

@[simp] theorem State.writeResponse_resStatus (s : State) (c : StatusWord) (l : Len) (d : Wide) :
    (s.writeResponse c l d).resStatus = c := rfl

@[simp] theorem State.writeResponse_resLen (s : State) (c : StatusWord) (l : Len) (d : Wide) :
    (s.writeResponse c l d).resLen = l := rfl

@[simp] theorem State.writeResponse_resData (s : State) (c : StatusWord) (l : Len) (d : Wide) :
    (s.writeResponse c l d).resData = d := rfl

@[simp] theorem State.writeResponse_pending (s : State) (c : StatusWord) (l : Len) (d : Wide) :
    (s.writeResponse c l d).pending = s.pending := rfl

@[simp] theorem complete_resStatus (r : Result) (s : State) : (complete r s).resStatus = statusOk := rfl

@[simp] theorem complete_resLen (r : Result) (s : State) : (complete r s).resLen = r.len := rfl

@[simp] theorem complete_resData (r : Result) (s : State) : (complete r s).resData = r.data := rfl

@[simp] theorem complete_pending (r : Result) (s : State) : (complete r s).pending = s.pending := rfl

@[simp] theorem raise_resStatus (e : CodecError) (s : State) : (raise e s).resStatus = e.code := rfl

@[simp] theorem raise_resLen (e : CodecError) (s : State) : (raise e s).resLen = 0 := rfl

@[simp] theorem raise_resData (e : CodecError) (s : State) : (raise e s).resData = 0 := rfl

@[simp] theorem raise_pending (e : CodecError) (s : State) : (raise e s).pending = s.pending := rfl

@[simp] theorem finish_ok (r : Result) (s : State) : finish (.ok r) s = complete r s := rfl

@[simp] theorem finish_error (e : CodecError) (s : State) : finish (.error e) s = raise e s := rfl

@[simp] theorem finish_pending (o : Except CodecError Result) (s : State) : (finish o s).pending = s.pending := by
  cases o <;> rfl

@[simp] theorem State.assertReset_resStatus (s : State) : s.assertReset.resStatus = 0 := rfl

@[simp] theorem State.assertReset_resLen (s : State) : s.assertReset.resLen = 0 := rfl

@[simp] theorem State.assertReset_resData (s : State) : s.assertReset.resData = 0 := rfl

@[simp] theorem State.assertReset_pending (s : State) : s.assertReset.pending = s.pending := rfl

@[simp] theorem State.issueFirst_pending (s : State) (w : CommandWord) :
    (s.issueFirst w).pending = .issue w :: s.pending := rfl

@[simp] theorem State.issueLast_pending (s : State) (w : CommandWord) :
    (s.issueLast w).pending = s.pending ++ [.issue w] := rfl

/-- What taking the host's next action can answer. -/
theorem State.nextAction_cases (s : State) :
    (s.pending = [] ∧ s.nextAction = none) ∨
    ∃ a rest, s.pending = a :: rest ∧ s.nextAction = some (a, { s with pending := rest }) := by
  unfold State.nextAction
  cases h : s.pending with
  | nil => exact .inl ⟨rfl, rfl⟩
  | cons a rest => exact .inr ⟨a, rest, rfl, rfl⟩

/-- The only errors there are write the codes 2, 3 and 4 (R160). -/
theorem CodecError.code_cases (e : CodecError) : e.code = 2 ∨ e.code = 3 ∨ e.code = 4 := by
  cases e <;> decide

/-- An error is never reported as `OK` (R22). -/
theorem CodecError.code_ne_ok (e : CodecError) : e.code ≠ statusOk := by
  cases e <;> decide

end Sys2Proof.Machine
end

