-- ==== Sys2Proof/Laws/Operands.lean ====
section
/-! SUPPORT. What selecting the operand can answer, and what each meaning does with a ready operand. -/

namespace Sys2Proof.Machine

/-- A ready operand is the effective one (R151). -/
theorem selectOperand_ready {src : OperandSource} {len : Len} {data : Wide} {s : State} (h : OperandReady src s) :
    selectOperand src len data s = .ok ⟨effectiveLen src len s, effectiveData src data s⟩ := by
  cases src with
  | command => rfl
  | results =>
    have hs : s.resStatus = statusOk := h.resolve_left (by decide)
    simp [selectOperand, hs, effectiveLen, effectiveData]

/-- An operand that is not ready is an illegal command (R165). -/
theorem selectOperand_notReady {src : OperandSource} {len : Len} {data : Wide} {s : State} (h : ¬ OperandReady src s) :
    selectOperand src len data s = .error .illegalCommand := by
  cases src with
  | command => exact absurd (.inl rfl) h
  | results =>
    have hs : s.resStatus ≠ statusOk := fun e => h (.inr e)
    simp [selectOperand, hs]

/-- A command with a ready operand ends as its operation says. -/
theorem runOperation_ready (f : Operand → Except CodecError Result) {src : OperandSource} {len : Len} {data : Wide}
    {s : State} (h : OperandReady src s) :
    runOperation f src len data s = finish (f ⟨effectiveLen src len s, effectiveData src data s⟩) s := by
  simp [runOperation, selectOperand_ready h, Except.bind]

/-- A command whose operand is not ready ends in IllegalCommand, whatever its operation. -/
theorem runOperation_notReady (f : Operand → Except CodecError Result) {src : OperandSource} {len : Len} {data : Wide}
    {s : State} (h : ¬ OperandReady src s) :
    runOperation f src len data s = raise .illegalCommand s := by
  simp [runOperation, selectOperand_notReady h, Except.bind]

/-- Everything a command can do: its operation's outcome, or IllegalCommand. -/
theorem runOperation_cases (f : Operand → Except CodecError Result) (src : OperandSource) (len : Len) (data : Wide)
    (s : State) :
    (OperandReady src s ∧
      runOperation f src len data s = finish (f ⟨effectiveLen src len s, effectiveData src data s⟩) s) ∨
    (¬ OperandReady src s ∧ runOperation f src len data s = raise .illegalCommand s) := by
  by_cases h : OperandReady src s
  · exact .inl ⟨h, runOperation_ready f h⟩
  · exact .inr ⟨h, runOperation_notReady f h⟩

/-- Every instruction ends in an error or in the result of one of the three operations on some operand. -/
theorem exec_cases (i : Instr) (s : State) :
    (∃ e, exec i s = .next (raise e s)) ∨
    ∃ o r, exec i s = .next (complete r s) ∧
      (parseOperand o = .ok r ∨ encodeOperand o = .ok r ∨ decodeOperand o = .ok r) := by
  have core : ∀ (f : Operand → Except CodecError Result) src len data,
      (∃ e, runOperation f src len data s = raise e s) ∨
      ∃ o r, runOperation f src len data s = complete r s ∧ f o = .ok r := by
    intro f src len data
    obtain ⟨-, h⟩ | ⟨-, h⟩ := runOperation_cases f src len data s
    · cases hf : f ⟨effectiveLen src len s, effectiveData src data s⟩ with
      | ok r => exact .inr ⟨_, r, by rw [h, hf, finish_ok], hf⟩
      | error e => exact .inl ⟨e, by rw [h, hf, finish_error]⟩
    · exact .inl ⟨_, h⟩
  cases i with
  | parse src len data =>
    obtain ⟨e, h⟩ | ⟨o, r, h, hf⟩ := core parseOperand src len data
    · exact .inl ⟨e, congrArg _ h⟩
    · exact .inr ⟨o, r, congrArg _ h, .inl hf⟩
  | encode src len data =>
    obtain ⟨e, h⟩ | ⟨o, r, h, hf⟩ := core encodeOperand src len data
    · exact .inl ⟨e, congrArg _ h⟩
    · exact .inr ⟨o, r, congrArg _ h, .inr (.inl hf)⟩
  | decode src len data =>
    obtain ⟨e, h⟩ | ⟨o, r, h, hf⟩ := core decodeOperand src len data
    · exact .inl ⟨e, congrArg _ h⟩
    · exact .inr ⟨o, r, congrArg _ h, .inr (.inr hf)⟩
  | reservedOp3 => exact .inl ⟨_, rfl⟩
  | reservedRsv1 => exact .inl ⟨_, rfl⟩

/-- What one step can do, from the host's list (R20). -/
theorem step_cases (s : State) :
    (s.pending = [] ∧ step s = .next s) ∨
    (∃ w rest, s.pending = .issue w :: rest ∧ step s = exec (decode w) { s with pending := rest }) ∨
    (∃ rest, s.pending = .read :: rest ∧ step s = .next { s with pending := rest }) ∨
    ∃ a rest, s.pending = a :: rest ∧ (a = .reset ∨ ∃ w, a = .abandon w) ∧
      step s = .next (State.assertReset { s with pending := rest }) := by
  obtain ⟨h, hn⟩ | ⟨a, rest, h, hn⟩ := s.nextAction_cases
  · exact .inl ⟨h, by simp [step, hn]⟩
  · cases a with
    | issue w => exact .inr (.inl ⟨w, rest, h, by simp [step, hn]⟩)
    | read => exact .inr (.inr (.inl ⟨rest, h, by simp [step, hn]⟩))
    | reset => exact .inr (.inr (.inr ⟨_, rest, h, .inl rfl, by simp [step, hn]⟩))
    | abandon w => exact .inr (.inr (.inr ⟨_, rest, h, .inr ⟨w, rfl⟩, by simp [step, hn]⟩))

end Sys2Proof.Machine
end

