-- ==== Sys2Proof/Laws/Codec.lean ====
section
/-! SUPPORT. The three operations in numbers: what each loop computes, without its accumulators. -/

namespace Sys2Proof.Machine

/-! ## Bytes as numbers -/

/-- The number whose base-256 digits are the bytes, most significant first. -/
def bytesNat : List Byte → Nat
  | [] => 0
  | b :: rest => b.toNat * 2 ^ (8 * rest.length) + bytesNat rest

/-- The number whose base-128 digits are the chunks of the bytes, least significant first. -/
def chunksNat : List Byte → Nat
  | [] => 0
  | b :: rest => b.toNat % 128 + 128 * chunksNat rest

theorem bytesNat_lt (bs : List Byte) : bytesNat bs < 2 ^ (8 * bs.length) := by
  induction bs with
  | nil => simp [bytesNat]
  | cons b rest ih =>
    have hb := b.isLt
    have hp : 2 ^ (8 * (rest.length + 1)) = 256 * 2 ^ (8 * rest.length) := by
      rw [Nat.mul_add, Nat.pow_add]; ring
    simp only [bytesNat, List.length_cons, hp]
    nlinarith

theorem bytesNat_append (xs ys : List Byte) :
    bytesNat (xs ++ ys) = bytesNat xs * 2 ^ (8 * ys.length) + bytesNat ys := by
  induction xs with
  | nil => simp [bytesNat]
  | cons b rest ih =>
    simp only [List.cons_append, bytesNat, ih, List.length_append]
    rw [Nat.mul_add, Nat.pow_add]; ring

theorem chunksNat_lt (bs : List Byte) : chunksNat bs < 2 ^ (7 * bs.length) := by
  induction bs with
  | nil => simp [chunksNat]
  | cons b rest ih =>
    have hp : 2 ^ (7 * (rest.length + 1)) = 128 * 2 ^ (7 * rest.length) := by
      rw [Nat.mul_add, Nat.pow_add]; ring
    have hb := Nat.mod_lt b.toNat (show 128 > 0 by decide)
    simp only [chunksNat, List.length_cons, hp]
    omega

/-! ## PARSE -/

/-- The loop of R93 adds the bytes it visits at rising weights, as long as they fit 64 bits (R141). -/
theorem accumulateBytes_toNat (bs : List Byte) (pos : Nat) (value : Value)
    (hpos : pos + bs.length ≤ 8) (hv : value.toNat < 2 ^ (8 * pos)) :
    (accumulateBytes bs pos value).toNat = value.toNat + 2 ^ (8 * pos) * bytesNat bs.reverse := by
  induction bs generalizing pos value with
  | nil => simp [accumulateBytes, bytesNat]
  | cons b rest ih =>
    simp only [List.length_cons] at hpos
    have hb := b.isLt
    have hle : 2 ^ (8 * pos) * 256 ≤ 2 ^ 64 := by
      rw [show (256 : Nat) = 2 ^ 8 from rfl, ← Nat.pow_add]
      exact Nat.pow_le_pow_right (by decide) (by omega)
    have hsh : (b.setWidth 64 <<< (pos * Config.byteW)).toNat = b.toNat * 2 ^ (8 * pos) := by
      simp only [BitVec.toNat_shiftLeft, BitVec.toNat_setWidth, Nat.shiftLeft_eq, Config.byteW, Nat.mul_comm pos 8]
      rw [Nat.mod_eq_of_lt (a := b.toNat) (by omega)]
      exact Nat.mod_eq_of_lt (by nlinarith)
    have hsum : (value + (b.setWidth 64 <<< (pos * Config.byteW))).toNat = value.toNat + b.toNat * 2 ^ (8 * pos) := by
      rw [BitVec.toNat_add, hsh]
      exact Nat.mod_eq_of_lt (by nlinarith)
    have hp : 2 ^ (8 * (pos + 1)) = 256 * 2 ^ (8 * pos) := by rw [Nat.mul_add, Nat.pow_add]; ring
    rw [accumulateBytes, ih (pos + 1) _ (by omega) (by rw [hsum, hp]; nlinarith), hsum, hp, List.reverse_cons,
      bytesNat_append]
    simp [bytesNat]
    ring

/-- PARSE's Value is the number its bytes spell (R93). -/
theorem parseValue_toNat {rb : List Byte} (h : rb.length ≤ 8) : (parseValue rb).toNat = bytesNat rb := by
  rw [parseValue, accumulateBytes_toNat _ _ _ (by simpa using h) (by simp)]
  simp

/-! ## ENCODE -/

/-- A pass takes the low 7 bits, and marks the byte when more remain (R102, R103). -/
theorem chunkByte_toNat (rem : Value) :
    (chunkByte rem).toNat = rem.toNat % 128 + if rem.toNat / 128 = 0 then 0 else 128 := by
  have h7 : ((rem &&& 0x7F).setWidth 8).toNat = rem.toNat % 128 := by
    simp only [BitVec.toNat_setWidth, BitVec.toNat_and]
    rw [show (0x7F : Value).toNat = 2 ^ 7 - 1 from rfl, Nat.and_two_pow_sub_one_eq_mod]
    omega
  have hz : (rem >>> Config.chunkW = 0) ↔ rem.toNat / 128 = 0 := by
    rw [← BitVec.toNat_inj]
    simp [BitVec.toNat_ushiftRight, Nat.shiftRight_eq_div_pow, Config.chunkW]
  unfold chunkByte
  by_cases hr : rem.toNat / 128 = 0
  · rw [if_neg (not_not.2 (hz.2 hr)), h7, if_pos hr, Nat.add_zero]
  · have : ¬ rem >>> Config.chunkW = 0 := fun e => hr (hz.1 e)
    simp only [ne_eq, this, not_false_iff, if_true, hr, if_false, BitVec.toNat_or, h7]
    have hm := Nat.mod_lt rem.toNat (show 128 > 0 by decide)
    rw [show continuationMask.toNat = 2 ^ 7 * 1 from rfl, Nat.or_comm,
      ← Nat.two_pow_add_eq_or_of_lt (by simpa using hm)]
    omega

/-- The value that remains after a pass. -/
theorem shiftChunk_toNat (rem : Value) : (rem >>> Config.chunkW).toNat = rem.toNat / 128 := by
  simp [BitVec.toNat_ushiftRight, Nat.shiftRight_eq_div_pow, Config.chunkW]

theorem chunkLoop_zero (passes : Nat) : chunkLoop passes 0 = [] := by
  cases passes <;> simp [chunkLoop]

theorem chunkLoop_succ {passes : Nat} {rem : Value} (h : rem ≠ 0) :
    chunkLoop (passes + 1) rem = chunkByte rem :: chunkLoop passes (rem >>> Config.chunkW) := by
  rw [chunkLoop, if_neg h]

/-- The bound on passes does not matter once it covers the value (R106). -/
theorem chunkLoop_stable (passes : Nat) (rem : Value) (h : rem.toNat < 2 ^ (7 * passes)) (k : Nat) :
    chunkLoop (passes + k) rem = chunkLoop passes rem := by
  induction passes generalizing rem with
  | zero =>
    have : rem = 0 := BitVec.eq_of_toNat_eq (by simpa using h)
    rw [this, chunkLoop_zero, chunkLoop_zero]
  | succ n ih =>
    by_cases hr : rem = 0
    · rw [hr, chunkLoop_zero, chunkLoop_zero]
    · have hp : 2 ^ (7 * (n + 1)) = 128 * 2 ^ (7 * n) := by rw [Nat.mul_add, Nat.pow_add]; ring
      rw [show n + 1 + k = n + k + 1 by omega, chunkLoop_succ hr, chunkLoop_succ hr, ih]
      rw [shiftChunk_toNat]
      omega

/-- The working list carries the value in its chunks (R102). -/
theorem chunksNat_chunkLoop (passes : Nat) (rem : Value) (h : rem.toNat < 2 ^ (7 * passes)) :
    chunksNat (chunkLoop passes rem) = rem.toNat := by
  induction passes generalizing rem with
  | zero =>
    have : rem.toNat = 0 := by simpa using h
    rw [this]; rfl
  | succ n ih =>
    by_cases hr : rem = 0
    · rw [hr, chunkLoop_zero]; rfl
    · have hp : 2 ^ (7 * (n + 1)) = 128 * 2 ^ (7 * n) := by rw [Nat.mul_add, Nat.pow_add]; ring
      rw [chunkLoop_succ hr, chunksNat, ih _ (by rw [shiftChunk_toNat]; omega), shiftChunk_toNat, chunkByte_toNat]
      split <;> omega

/-- The loop makes `n` passes or fewer exactly when the value has no more than `7n` bits (R102). -/
theorem chunkLoop_length_le (passes : Nat) (rem : Value) (h : rem.toNat < 2 ^ (7 * passes)) (n : Nat) :
    (chunkLoop passes rem).length ≤ n ↔ rem.toNat < 2 ^ (7 * n) := by
  induction passes generalizing rem n with
  | zero =>
    have : rem.toNat = 0 := by simpa using h
    simp [chunkLoop, this]
  | succ p ih =>
    by_cases hr : rem = 0
    · rw [hr, chunkLoop_zero]; simp
    · have hpos : rem.toNat ≠ 0 := fun e => hr (BitVec.eq_of_toNat_eq (by simpa using e))
      have hp : ∀ m, 2 ^ (7 * (m + 1)) = 128 * 2 ^ (7 * m) := fun m => by rw [Nat.mul_add, Nat.pow_add]; ring
      have hp' := hp p
      rw [chunkLoop_succ hr, List.length_cons]
      cases n with
      | zero => simp; omega
      | succ m =>
        have hm := hp m
        rw [Nat.add_le_add_iff_right, ih _ (by rw [shiftChunk_toNat]; omega), shiftChunk_toNat]
        omega

/-- Byte `k` of the working list is what pass `k` appends (R102, R103). -/
theorem chunkLoop_getElem? (passes : Nat) (rem : Value) (k : Nat) (b : Byte)
    (h : (chunkLoop passes rem)[k]? = some b) : b = chunkByte (rem >>> (7 * k)) ∧ rem >>> (7 * k) ≠ 0 := by
  induction passes generalizing rem k with
  | zero => simp [chunkLoop] at h
  | succ p ih =>
    by_cases hr : rem = 0
    · rw [hr, chunkLoop_zero] at h; simp at h
    · rw [chunkLoop_succ hr] at h
      cases k with
      | zero => exact ⟨by simpa using h.symm, by simpa using hr⟩
      | succ m =>
        obtain ⟨h1, h2⟩ := ih _ m (by simpa using h)
        rw [← BitVec.shiftRight_add, show Config.chunkW + 7 * m = 7 * (m + 1) by simp [Config.chunkW]; ring] at h1 h2
        exact ⟨h1, h2⟩

/-- Every Value is below the weight of the eleventh chunk (R106). -/
theorem value_lt (v : Value) : v.toNat < 2 ^ (7 * 10) := lt_trans v.isLt (by decide)

/-- The VarintBuffer of 0 (R105). -/
theorem encodeValue_zero : encodeValue 0 = [0x00] := by
  rw [encodeValue, chunkLoop_zero]; rfl

/-- For `v > 0` the VarintBuffer is the working list (R104). -/
theorem encodeValue_of_ne {v : Value} (h : v ≠ 0) : encodeValue v = chunkLoop 10 v := by
  rw [encodeValue, show Config.maxChunks = 9 + 1 from rfl, chunkLoop_succ h]; rfl

/-- A VarintBuffer is never empty (R63, R105). -/
theorem encodeValue_length_pos (v : Value) : 1 ≤ (encodeValue v).length := by
  by_cases h : v = 0
  · rw [h, encodeValue_zero]; decide
  · rw [encodeValue_of_ne h, show 10 = 9 + 1 from rfl, chunkLoop_succ h]; simp

/-- `n` bytes are enough exactly for `7n` bits (R146). -/
theorem encodeValue_length_le (v : Value) {n : Nat} (hn : 1 ≤ n) :
    (encodeValue v).length ≤ n ↔ v.toNat < 2 ^ (7 * n) := by
  by_cases h : v = 0
  · rw [h, encodeValue_zero]; simp [hn]
  · rw [encodeValue_of_ne h, chunkLoop_length_le _ _ (value_lt v)]

/-- A VarintBuffer has at most 10 bytes (R106). -/
theorem encodeValue_length_le_ten (v : Value) : (encodeValue v).length ≤ 10 :=
  (encodeValue_length_le v (by decide)).2 (value_lt v)

/-- The chunks of the VarintBuffer carry the Value (R66). -/
theorem chunksNat_encodeValue (v : Value) : chunksNat (encodeValue v) = v.toNat := by
  by_cases h : v = 0
  · rw [h, encodeValue_zero]; rfl
  · rw [encodeValue_of_ne h, chunksNat_chunkLoop _ _ (value_lt v)]

/-- The packed form is the number its bytes spell, in 80 bits (R67, R141). -/
theorem pack_toNat {vb : List Byte} (h : vb.length ≤ 10) : (pack vb).toNat = bytesNat vb := by
  induction vb with
  | nil => rfl
  | cons b rest ih =>
    simp only [List.length_cons] at h
    have hb := b.isLt
    have hlt := bytesNat_lt rest
    have hle : 2 ^ (8 * rest.length) * 256 ≤ 2 ^ 80 := by
      rw [show (256 : Nat) = 2 ^ 8 from rfl, ← Nat.pow_add]
      exact Nat.pow_le_pow_right (by decide) (by omega)
    rw [pack, BitVec.toNat_add, ih (by omega), bytesNat]
    simp only [BitVec.toNat_shiftLeft, BitVec.toNat_setWidth, Nat.shiftLeft_eq, Config.byteW]
    rw [Nat.mod_eq_of_lt (a := b.toNat) (by omega), Nat.mod_eq_of_lt (a := b.toNat * _) (by nlinarith)]
    exact Nat.mod_eq_of_lt (by nlinarith)

/-! ## DECODE -/

/-- The packed form keeps the low `n` bytes (R120). -/
theorem packedForm_toNat {n : Nat} (h : n ≤ 10) (data : Wide) :
    (packedForm n data).toNat = data.toNat % 2 ^ (8 * n) := by
  have hle : 2 ^ (8 * n) ≤ 2 ^ 80 := Nat.pow_le_pow_right (by decide) (by omega)
  have hlt := Nat.mod_lt data.toNat (Nat.two_pow_pos (8 * n))
  simp only [packedForm, BitVec.toNat_setWidth, BitVec.extractLsb'_toNat, Nat.shiftRight_zero]
  exact Nat.mod_eq_of_lt (by omega)

theorem reassemble_append (xs ys : List Chunk) (pos result : Nat) :
    reassemble (xs ++ ys) pos result = reassemble ys (pos + xs.length) (reassemble xs pos result) := by
  induction xs generalizing pos result with
  | nil => rfl
  | cons c rest ih =>
    rw [List.cons_append, reassemble, ih, reassemble, List.length_cons, Nat.add_assoc, Nat.add_comm 1]

theorem extractChunks_length (n : Nat) (rem : Wide) : (extractChunks n rem).length = n := by
  induction n generalizing rem with
  | zero => rfl
  | succ n ih => simp [extractChunks, ih]

/-- One more byte: the chunk that the first pass takes has the highest weight (R124, R125). -/
theorem reassembleChunks_extractChunks_succ (n : Nat) (rem : Wide) :
    reassembleChunks (extractChunks (n + 1) rem)
      = reassembleChunks (extractChunks n (rem >>> Config.byteW)) + rem.toNat % 128 * 2 ^ (7 * n) := by
  simp only [reassembleChunks, extractChunks, List.reverse_cons, reassemble_append, reassemble, List.length_reverse,
    extractChunks_length, Nat.zero_add, Nat.shiftLeft_eq, BitVec.toNat_setWidth, Config.chunkW, Nat.mul_comm n 7]

/-- DECODE's number, from the low bytes of `rem` (R125). -/
theorem reassembleChunks_extractChunks (n : Nat) (rem : Wide) :
    reassembleChunks (extractChunks n rem) = chunkSum n rem := by
  induction n generalizing rem with
  | zero => rfl
  | succ n ih =>
    rw [reassembleChunks_extractChunks_succ, ih, chunkSum, chunkSum, Finset.sum_range_succ]
    congr 1
    · refine Finset.sum_congr rfl fun i hi => ?_
      have hi := Finset.mem_range.1 hi
      simp only [BitVec.extractLsb'_toNat, BitVec.toNat_ushiftRight, ← Nat.shiftRight_add, Config.byteW]
      rw [show 8 + 8 * (n - 1 - i) = 8 * (n + 1 - 1 - i) by omega]
    · simp [BitVec.extractLsb'_toNat]

/-- The chunks below byte `n` do not see what the packed form cuts off (R120). -/
theorem chunkSum_packedForm {n : Nat} (h : n ≤ 10) (data : Wide) : chunkSum n (packedForm n data) = chunkSum n data := by
  refine Finset.sum_congr rfl fun i hi => ?_
  have hi := Finset.mem_range.1 hi
  congr 1
  simp only [BitVec.extractLsb'_toNat, packedForm_toNat h, Nat.shiftRight_eq_div_pow]
  rw [show 8 * n = 8 * (n - 1 - i) + 7 + (8 * n - (8 * (n - 1 - i) + 7)) by omega, Nat.pow_add, Nat.pow_add,
    Nat.mul_assoc, Nat.mod_mul_right_div_self, Nat.mod_mul_right_mod]

/-- What DECODE computes before the test of R127 is the sum of the chunks at their weights (R125). -/
theorem decodeNat_eq_chunkSum {n : Nat} (h : n ≤ 10) (data : Wide) : decodeNat n data = chunkSum n data := by
  rw [decodeNat, reassembleChunks_extractChunks, chunkSum_packedForm h]

/-- The sum over the lanes is the number the chunks of the VarintBuffer spell (R125, R129). -/
theorem chunkSum_eq_chunksNat (n : Nat) (data : Wide) : chunkSum n data = chunksNat (varintBytes n data) := by
  have key : ∀ (xs : List Nat) (f : Nat → Byte),
      chunksNat (xs.map f) = ((xs.map fun i => (f i).toNat % 128).zipIdx.map fun p => p.1 * 2 ^ (7 * p.2)).sum := by
    intro xs f
    have gen : ∀ (xs : List Nat) (k : Nat),
        ((xs.map fun i => (f i).toNat % 128).zipIdx k |>.map fun p => p.1 * 2 ^ (7 * p.2)).sum
          = 2 ^ (7 * k) * chunksNat (xs.map f) := by
      intro xs
      induction xs with
      | nil => simp [chunksNat]
      | cons x rest ih =>
        intro k
        simp only [List.map_cons, List.zipIdx_cons, List.sum_cons, ih, chunksNat]
        rw [Nat.mul_add 7, Nat.pow_add]; ring
    simpa using (gen xs 0).symm
  rw [varintBytes, key, chunkSum, Finset.sum_range, ← List.sum_ofFn]
  congr 1
  refine List.ext_getElem (by simp) fun i h1 h2 => ?_
  simp [varintByte, BitVec.extractLsb'_toNat, Nat.shiftRight_eq_div_pow]

end Sys2Proof.Machine
end

