-- ==== Sys2Proof/Laws/Decode.lean ====
section
/-! SUPPORT. The fields of a command word, put together and taken apart (30_encoding.md R71). -/

namespace Sys2Proof

/-- Two adjacent fields, put together, are the field that spans them. -/
theorem append_extract (w : CommandWord) (lo n m : Nat) :
    w.extractLsb' (lo + m) n ++ w.extractLsb' lo m = w.extractLsb' lo (n + m) := by
  apply BitVec.eq_of_getLsbD_eq
  intro i hi
  simp only [BitVec.getLsbD_append, BitVec.getLsbD_extractLsb']
  by_cases h : i < m
  · simp [h, hi]
  · have h1 : i - m < n := by omega
    have h2 : lo + m + (i - m) = lo + i := by omega
    simp [h, hi, h1, h2]

/-- A word is its five fields (R71). -/
theorem word_eq_fields (w : CommandWord) :
    CommandWord.op w ++ (CommandWord.src w ++ (CommandWord.rsv w ++ (CommandWord.len w ++ CommandWord.data w))) = w := by
  have h1 := append_extract w 0 4 80
  have h2 := append_extract w 0 1 84
  have h3 := append_extract w 0 1 85
  have h4 := append_extract w 0 2 86
  simp only [CommandWord.op, CommandWord.src, CommandWord.rsv, CommandWord.len, CommandWord.data]
  exact (congrArg _ ((congrArg _ ((congrArg _ h1).trans h2)).trans h3)).trans
    (h4.trans (BitVec.extractLsb'_eq_self))

section Fields

variable (op : BitVec 2) (src : OperandSource) (rsv : BitVec 1) (len : Len) (data : Wide)

/-- The low part of two fields put together. -/
theorem extract_append_low {n m : Nat} (a : BitVec n) (b : BitVec m) (lo k : Nat) (h : lo + k ≤ m) :
    (a ++ b).extractLsb' lo k = b.extractLsb' lo k := by
  apply BitVec.eq_of_getLsbD_eq
  intro i hi
  simp only [BitVec.getLsbD_append, BitVec.getLsbD_extractLsb', hi]
  rw [if_pos (by omega)]

/-- The high part of two fields put together. -/
theorem extract_append_high {n m : Nat} (a : BitVec n) (b : BitVec m) : (a ++ b).extractLsb' m n = a := by
  apply BitVec.eq_of_getLsbD_eq
  intro i hi
  simp [BitVec.getLsbD_append, hi]

theorem assembleWord_op : CommandWord.op (assembleWord op src rsv len data) = op :=
  extract_append_high op (src.bit ++ (rsv ++ (len ++ data)))

theorem assembleWord_src : CommandWord.src (assembleWord op src rsv len data) = src.bit :=
  (extract_append_low op (src.bit ++ (rsv ++ (len ++ data))) 85 1 (by decide)).trans
    (extract_append_high src.bit (rsv ++ (len ++ data)))

theorem assembleWord_rsv : CommandWord.rsv (assembleWord op src rsv len data) = rsv :=
  (extract_append_low op (src.bit ++ (rsv ++ (len ++ data))) 84 1 (by decide)).trans <|
    (extract_append_low src.bit (rsv ++ (len ++ data)) 84 1 (by decide)).trans
      (extract_append_high rsv (len ++ data))

theorem assembleWord_len : CommandWord.len (assembleWord op src rsv len data) = len :=
  (extract_append_low op (src.bit ++ (rsv ++ (len ++ data))) 80 4 (by decide)).trans <|
    (extract_append_low src.bit (rsv ++ (len ++ data)) 80 4 (by decide)).trans <|
      (extract_append_low rsv (len ++ data) 80 4 (by decide)).trans (extract_append_high len data)

theorem assembleWord_data : CommandWord.data (assembleWord op src rsv len data) = data :=
  (extract_append_low op (src.bit ++ (rsv ++ (len ++ data))) 0 80 (by decide)).trans <|
    (extract_append_low src.bit (rsv ++ (len ++ data)) 0 80 (by decide)).trans <|
      (extract_append_low rsv (len ++ data) 0 80 (by decide)).trans <|
        (extract_append_low len data 0 80 (by decide)).trans BitVec.extractLsb'_eq_self

end Fields

/-- The `src` bit selects the source it stands for (R75). -/
theorem sourceOfBit_bit (src : OperandSource) : sourceOfBit src.bit = src := by
  cases src <;> rfl

/-- Of a mask that looks only at the header's top four bits, a word shows only those (R78). -/
theorem and_headerMask (w : CommandWord) (m : BitVec 4) :
    w &&& (m ++ 0#84) = (w.extractLsb' 84 4 &&& m) ++ 0#84 := by
  have h : w = w.extractLsb' 84 4 ++ w.extractLsb' 0 84 :=
    ((append_extract w 0 4 84).trans BitVec.extractLsb'_eq_self).symm
  conv_lhs => rw [h]
  rw [BitVec.and_append, BitVec.and_zero]

end Sys2Proof
end

