-- ==== Sys2Proof/Laws/PerInstr.lean ====
section
/-! SUPPORT. What holds of every instruction as syntax, one lemma per constructor. Family RowBits: the word of an
instruction has the fixed bits of its row of the opcode table (30_encoding.md R78). -/

namespace Sys2Proof.Laws

/-- The word's top four bits, under a mask, decide whether a row's fixed bits are there. -/
theorem hits_of_header {r : OpcodeRow} {w : CommandWord} {m v : BitVec 4} (hm : r.mask = m ++ 0#84)
    (hv : r.value = v ++ 0#84) (h : w.extractLsb' 84 4 &&& m = v) : r.hits w := by
  simp [OpcodeRow.hits, hm, hv, and_headerMask, h]

/-- The top four bits of a word put together from its fields. -/
theorem assembleWord_header (op : BitVec 2) (src : OperandSource) (rsv : BitVec 1) (len : Len) (data : Wide) :
    (assembleWord op src rsv len data).extractLsb' 84 4 = op ++ (src.bit ++ rsv) := by
  have h1 := append_extract (assembleWord op src rsv len data) 84 1 1
  have h2 := append_extract (assembleWord op src rsv len data) 84 2 2
  rw [← h2, ← h1]
  exact congrArg₂ _ (assembleWord_op op src rsv len data)
    (congrArg₂ _ (assembleWord_src op src rsv len data) (assembleWord_rsv op src rsv len data))

/-- The word of `i` has the fixed bits of the table row that `i` stands for. -/
def RowBits.Statement (i : Instr) : Prop := ∀ r ∈ opcodeTable, r.mnemonic = i.mnemonic → r.hits (encode i)

theorem RowBits.parse (src : OperandSource) (len : Len) (data : Wide) : RowBits.Statement (.parse src len data) := by
  intro r hr hm
  simp only [opcodeTable, List.mem_cons, List.not_mem_nil, or_false] at hr
  obtain rfl | rfl | rfl | rfl | rfl := hr <;> simp [Instr.mnemonic] at hm
  exact hits_of_header (m := 0xD) (v := 0x0) rfl rfl (by
    rw [encode, assembleWord_header]; cases src <;> decide)

theorem RowBits.encode (src : OperandSource) (len : Len) (data : Wide) : RowBits.Statement (.encode src len data) := by
  intro r hr hm
  simp only [opcodeTable, List.mem_cons, List.not_mem_nil, or_false] at hr
  obtain rfl | rfl | rfl | rfl | rfl := hr <;> simp [Instr.mnemonic] at hm
  exact hits_of_header (m := 0xD) (v := 0x4) rfl rfl (by
    rw [Sys2Proof.encode, assembleWord_header]; cases src <;> decide)

theorem RowBits.decode (src : OperandSource) (len : Len) (data : Wide) : RowBits.Statement (.decode src len data) := by
  intro r hr hm
  simp only [opcodeTable, List.mem_cons, List.not_mem_nil, or_false] at hr
  obtain rfl | rfl | rfl | rfl | rfl := hr <;> simp [Instr.mnemonic] at hm
  exact hits_of_header (m := 0xD) (v := 0x8) rfl rfl (by
    rw [Sys2Proof.encode, assembleWord_header]; cases src <;> decide)

theorem RowBits.reservedOp3 (src : OperandSource) (rsv : Bool) (len : Len) (data : Wide) :
    RowBits.Statement (.reservedOp3 src rsv len data) := by
  intro r hr hm
  simp only [opcodeTable, List.mem_cons, List.not_mem_nil, or_false] at hr
  obtain rfl | rfl | rfl | rfl | rfl := hr <;> simp [Instr.mnemonic] at hm
  exact hits_of_header (m := 0xC) (v := 0xC) rfl rfl (by
    rw [Sys2Proof.encode, assembleWord_header]; cases src <;> cases rsv <;> decide)

theorem RowBits.reservedRsv1 (op : BitVec 2) (src : OperandSource) (len : Len) (data : Wide) :
    RowBits.Statement (.reservedRsv1 op src len data) := by
  intro r hr hm
  simp only [opcodeTable, List.mem_cons, List.not_mem_nil, or_false] at hr
  obtain rfl | rfl | rfl | rfl | rfl := hr <;> simp [Instr.mnemonic] at hm
  exact hits_of_header (m := 0x1) (v := 0x1) rfl rfl (by
    rw [Sys2Proof.encode, assembleWord_header]; cases src <;> revert op <;> decide)

end Sys2Proof.Laws
end

