-- ==== Sys2Proof/Tests/Slice0.lean ====
section
/-! SUPPORT. Tests: words written out from the encoding, vectors of 95_test_vectors.md, ill-formed terms, and for every
statement with hypotheses a state and operands that meet them. -/

open Sys2Proof Sys2Proof.Machine

namespace Sys2Proof.Tests

/-- A state with this register triple and nothing issued. -/
def regs (status : StatusWord) (len : Len) (data : Wide) : State :=
  { resStatus := status, resLen := len, resData := data, pending := [] }

/-- The register triple an outcome leaves, if it is a next state. -/
def triple (o : Host.Outcome State Fault Refusal) : Option (StatusWord × Len × Wide) :=
  match o with
  | .next t => some (t.resStatus, t.resLen, t.resData)
  | .fault _ => none
  | .refused _ => none

/-! ## Well-formedness: one ill-formed term for each check -/

theorem test_op3_with_rsv_is_ill_formed : (Instr.reservedOp3 .command true 0 0).wellFormed = false := by decide

theorem test_asm_checks_refuse :
    (AsmLine.parse 16 (List.replicate 8 0)).wellFormed = false ∧ (AsmLine.parse 4 [1, 2, 3]).wellFormed = false ∧
    (AsmLine.encode (2 ^ 64)).wellFormed = false ∧ (AsmLine.decode (List.replicate 11 0)).wellFormed = false ∧
    (AsmLine.decodeRaw 16 0).wellFormed = false ∧ (AsmLine.decodeRaw 0 (2 ^ 80)).wellFormed = false ∧
    (AsmLine.word (2 ^ 88)).wellFormed = false ∧ (AsmLine.rtrip [1]).wellFormed = false := by decide

/-! ## Decoding: words written bit by bit, `op src rsv len data` (R71) -/

/-- `00 0 0 1000`, then the bytes of S1. -/
theorem test_decode_parse_word :
    decode 0b0000100000000000000000000000000000000000000000000000000000000000000000000000000010010110#88
      = .parse .command 8 0x96 := by decide

/-- `01 1 0 0000`: `ENCODE RES` (R82). -/
theorem test_decode_encode_word :
    decode 0b0110000000000000000000000000000000000000000000000000000000000000000000000000000000000000#88
      = .encode .results 0 0 := by decide

/-- `10 0 0 0010`, then `96 01` (R82). -/
theorem test_decode_decode_word :
    decode 0b1000001000000000000000000000000000000000000000000000000000000000000000001001011000000001#88
      = .decode .command 2 0x9601 := by decide

/-- `11 0 0 0000` (DV-C1). -/
theorem test_decode_op3_word :
    decode 0b1100000000000000000000000000000000000000000000000000000000000000000000000000000000000000#88
      = .reservedOp3 .command false 0 0 := by decide

/-- `00 0 1 1000`, then `96` (DV-C3); and the all-ones word, which both reserved rows match (DV-C5). -/
theorem test_decode_rsv1_word :
    decode 0b0001100000000000000000000000000000000000000000000000000000000000000000000000000010010110#88
      = .reservedRsv1 0 .command 8 0x96 ∧
    decode (BitVec.allOnes 88) = .reservedRsv1 3 .results 15 (BitVec.allOnes 80) := by decide

/-- The host's table word runs as the first instruction after reset (DV-E5). -/
theorem test_fetch_word_runs_first :
    decodeTableWord 88 0x4000000000000000000096 = some (.encode .command 0 0x96) ∧
    triple (step (State.reset.withFetchWord 88 0x4000000000000000000096)) = some (1, 2, 0x9601) := by decide

/-! ## Vectors of 95_test_vectors.md, at most two per instruction -/

/-- DV-P5: every lane distinct. -/
theorem test_parse_lanes :
    triple (exec (.parse .command 8 0x00000123456789ABCDEF) State.reset) = some (1, 8, 0x00000123456789ABCDEF) := by decide

/-- DV-C14 and DV-C15: `PARSE RES` after an ENCODE of 3 and of 10 bytes. -/
theorem test_parse_forwarded_lengths :
    triple (exec (.parse .results 0 0) (regs 1 3 0x808001)) = some (2, 0, 0) ∧
    triple (exec (.parse .results 0 0) (regs 1 10 0x80808080808080808001)) = some (4, 0, 0) := by decide

/-- DV-E14: a mixed bit pattern. -/
theorem test_encode_mixed :
    triple (exec (.encode .command 0 0x0123456789ABCDEF) State.reset) = some (1, 9, 0x00EF9BAFCDF8ACD19101) := by decide

/-- DV-E11: the smallest 10-byte value; and DV-E4, a zero chunk that keeps its continuation bit. -/
theorem test_encode_zero_chunks :
    triple (exec (.encode .command 0 0x8000000000000000) State.reset) = some (1, 10, 0x80808080808080808001) ∧
    triple (exec (.encode .command 0 0x80) State.reset) = some (1, 2, 0x8001) := by decide

/-- DV-D15: a first byte `00` counts; the last byte's continuation bit does not. -/
theorem test_decode_first_byte_zero :
    triple (exec (.decode .command 2 0x0096) State.reset) = some (1, 8, 0x0B00) := by decide

/-- DV-D11 and DV-D12: the largest value that fits, and the smallest that does not. -/
theorem test_decode_fit :
    triple (exec (.decode .command 10 0xFFFFFFFFFFFFFFFFFF01) State.reset) = some (1, 8, 0xFFFFFFFFFFFFFFFF) ∧
    triple (exec (.decode .command 10 0xFFFFFFFFFFFFFFFFFF02) State.reset) = some (3, 0, 0) := by decide

/-- DV-C2: `op = 3` with `src = 1`, after an `OK`. -/
theorem test_reserved_op3 : triple (exec (decode 0xE000000000000000000000#88) (regs 1 8 0x96)) = some (4, 0, 0) := by decide

/-- DV-C9: `rsv = 1` is reported, not the short length. -/
theorem test_reserved_rsv1 : triple (exec (decode 0x1400000000000000000000#88) State.reset) = some (4, 0, 0) := by decide

/-! ## The assembler (R80, R82, P1) -/

/-- P1's lines as text: comment, empty line, decimal and bytes. -/
theorem test_assemble_text :
    assembleText ("PARSE 8: 00 00 00 00 00 00 00 96 ; S1".toList ++ ['\n', '\n'] ++ "ENCODE RES".toList ++ ['\n'] ++
      "DECODE 96 01".toList)
      = some [0x0800000000000000000096#88, 0x6000000000000000000000#88, 0x8200000000000000009601#88] := by decide

/-- The other lines: DV-D19, DV-E5, DV-P11, `.cw`. -/
theorem test_assemble_other_lines :
    assembleText "DECODE 2, 0xFFFF9601".toList = some [0x82000000000000FFFF9601#88] ∧
    assembleText "ENCODE 150".toList = some [0x4000000000000000000096#88] ∧
    assembleText "PARSE 0:".toList = some [0#88] ∧
    assembleText ".cw 0xC000000000000000000000".toList = some [0xC000000000000000000000#88] := by decide

/-! ## Witnesses: the hypotheses of each statement can be met, at the ends of their ranges -/

theorem witness_ReadsAndIdleStepsChangeNoRegister : State.reset.pending = [] := by decide

theorem witness_StepRunsTheDecodedInstruction :
    ({ State.reset with pending := [.issue 0x4000000000000000000096#88, .read] } : State).pending
      = .issue 0x4000000000000000000096#88 :: [.read] ∧
    decode 0x4000000000000000000096#88 = .encode .command 0 0x96 := by decide

theorem witness_OnlyCommandsAndResetWriteTheRegisters :
    triple (step { State.reset with pending := [.issue 0x4000000000000000000096#88] }) = some (1, 2, 0x9601) ∧
    triple (step { regs 1 2 0x9601 with pending := [.reset] }) = some (0, 0, 0) ∧
    triple (step { regs 1 2 0x9601 with pending := [.abandon 0x4000000000000000000096#88] }) = some (0, 0, 0) := by decide

theorem witness_DecodeOfEncodeIsTheInstruction :
    (Instr.reservedOp3 .results false 15 7).wellFormed ∧ (Instr.parse .command 0 0).wellFormed ∧
    (Instr.reservedRsv1 3 .results 15 (BitVec.allOnes 80)).wellFormed := by decide

theorem witness_EveryWordMatchesItsTableRow :
    (opcodeTable.filter fun r => r.hits (BitVec.allOnes 88)).map (·.mnemonic) = ["RESERVED_OP3", "RESERVED_RSV1"] := by decide

theorem witness_ElevenBytesReadAsTheirWord : (List.replicate 10 (0 : Byte)).length < 11 ∧ ([] : List Byte).length < 11 := by
  decide

theorem witness_StepKeepsTheTripleSound :
    (regs 0 0 0).Inv ∧ (regs 1 10 (BitVec.allOnes 80)).Inv ∧ (regs 1 1 255).Inv ∧ (regs 4 0 0).Inv := by decide

theorem witness_ParseOfTooFewBytesIsTruncated :
    (OperandReady .command State.reset ∧ (effectiveLen .command 7 State.reset).toNat < 8) ∧
    (OperandReady .results (regs 1 3 0) ∧ (effectiveLen .results 0 (regs 1 3 0)).toNat < 8) ∧
    (effectiveLen .command 0 State.reset).toNat < 8 := by decide

theorem witness_ParseOfTooManyBytesIsIllegal :
    (OperandReady .command State.reset ∧ 8 < (effectiveLen .command 9 State.reset).toNat) ∧
    (OperandReady .results (regs 1 10 0) ∧ 8 < (effectiveLen .results 0 (regs 1 10 0)).toNat) ∧
    8 < (effectiveLen .command 15 State.reset).toNat := by decide

theorem witness_ParseGivesTheBigEndianSum :
    (OperandReady .command State.reset ∧ effectiveLen .command 8 State.reset = 8) ∧
    (OperandReady .results (regs 1 8 5) ∧ effectiveLen .results 0 (regs 1 8 5) = 8) := by decide

theorem witness_ParseIsWiring :
    (OperandReady .command State.reset ∧ effectiveLen .command 8 State.reset = 8) ∧
    (OperandReady .results (regs 1 8 5) ∧ effectiveLen .results 15 (regs 1 8 5) = 8) := by decide

theorem witness_ParseIsABijection : ([1, 2, 3, 4, 5, 6, 7, 8] : List Byte).length = 8 := by decide

theorem witness_ParseOfAForwardedValueIsIdentity :
    (regs 1 8 0xFFFFFFFFFFFFFFFF).resStatus = 1 ∧ (regs 1 8 0xFFFFFFFFFFFFFFFF).resLen = 8 ∧
    (regs 1 8 0xFFFFFFFFFFFFFFFF).resData.toNat < 2 ^ 64 := by decide

theorem witness_EncodeOfZeroIsOneZeroByte :
    OperandReady .command State.reset ∧
    (effectiveData .command 0xFFFF0000000000000000 State.reset).extractLsb' 0 64 = (0 : Value) := by decide

theorem witness_EncodeGivesLengthAndPackedForm :
    (OperandReady .command State.reset ∧
      (effectiveData .command 0xABCDFFFFFFFFFFFFFFFF State.reset).extractLsb' 0 64 = (0xFFFFFFFFFFFFFFFF : Value)) ∧
    (OperandReady .results (regs 1 8 0) ∧ (effectiveData .results 9 (regs 1 8 0)).extractLsb' 0 64 = (0 : Value)) := by
  decide

theorem witness_WorkingListFollowsChunkingRule :
    (chunkLoop 10 150)[0]? = some 0x96 ∧ (chunkLoop 10 150)[1]? = some 0x01 ∧
    (chunkLoop 10 0xFFFFFFFFFFFFFFFF)[9]? = some 0x01 := by decide

theorem witness_ContinuationBitOnEveryByteButTheLast :
    (encodeValue 0)[0]? = some 0x00 ∧ (encodeValue 150)[0]? = some 0x96 ∧ 9 < (encodeValue 0xFFFFFFFFFFFFFFFF).length := by
  decide

theorem witness_EncodeLengthFormulaAndThresholds :
    (encodeValue 127).length ≤ 1 ∧ ¬ (encodeValue 128).length ≤ 1 ∧ (encodeValue 0x7FFFFFFFFFFFFFFF).length ≤ 9 ∧
    ¬ (encodeValue 0x8000000000000000).length ≤ 9 := by decide

theorem witness_EncodeNeverExceedsTenBytes : 2 ^ 63 ≤ (0x8000000000000000 : Value).toNat := by decide

theorem witness_PackedFormHasNoZeroByte : (128 : Value) ≠ 0 ∧ 1 < (encodeValue 128).length := by decide

theorem witness_LoopBoundsAreNeverReached : (1 : Value) ≠ 0 := by decide

theorem witness_DecodeOfNoByteIsIllegal :
    (OperandReady .command State.reset ∧ effectiveLen .command 0 State.reset = 0) ∧
    (OperandReady .results (regs 1 0 0) ∧ effectiveLen .results 9 (regs 1 0 0) = 0) := by decide

theorem witness_DecodeOfMoreThanTenBytesIsOversized :
    (OperandReady .command State.reset ∧ 11 ≤ (effectiveLen .command 11 State.reset).toNat) ∧
    (OperandReady .results (regs 1 15 0) ∧ 11 ≤ (effectiveLen .results 0 (regs 1 15 0)).toNat) := by decide

theorem witness_DecodeGivesTheChunkSum :
    (OperandReady .command State.reset ∧ (effectiveLen .command 10 State.reset).toNat = 10 ∧
      chunkSum 10 (effectiveData .command 0xFFFFFFFFFFFFFFFFFF01 State.reset) < 2 ^ 64) ∧
    (OperandReady .results (regs 1 1 0x7F) ∧ (effectiveLen .results 0 (regs 1 1 0x7F)).toNat = 1 ∧
      chunkSum 1 (effectiveData .results 0 (regs 1 1 0x7F)) < 2 ^ 64) := by decide

theorem witness_DecodeOfAValueThatDoesNotFitIsOversized :
    OperandReady .command State.reset ∧ (effectiveLen .command 10 State.reset).toNat = 10 ∧
    2 ^ 64 ≤ chunkSum 10 (effectiveData .command 0x80808080808080808002 State.reset) ∧
    2 ≤ ((effectiveData .command 0x80808080808080808002 State.reset).extractLsb' 0 7).toNat := by decide

theorem witness_DecodeReadsOnlyTheChunks :
    ∀ k < (effectiveLen .command 2 State.reset).toNat,
      (effectiveData .command 0x9601 State.reset).extractLsb' (8 * k) 7
        = (effectiveData .command 0xFFFF1681 { State.reset with resData := 5 }).extractLsb' (8 * k) 7 := by decide

/-- For DecodeEqualsItsByteSequenceView, NoOperationWrapsAround, PackedFormAndByteSequenceAgree and
HostSeesBytesInSequenceOrder: lengths at the ends of their ranges. -/
theorem witness_lengths_up_to_ten :
    (10 : Nat) ≤ 10 ∧ (0 : Nat) ≤ 10 ∧ (List.replicate 10 (255 : Byte)).length ≤ 10 ∧
    (List.replicate 8 (255 : Byte)).length ≤ 8 := by decide

theorem witness_AddedTermsShareNoBit :
    (List.replicate 7 (255 : Byte)).length < 8 ∧ (List.replicate 9 (255 : Byte)).length < 10 := by decide

theorem witness_DecodeAfterEncodeRestoresTheValue :
    OperandReady .command State.reset ∧ OperandReady .results (regs 1 8 150) := by decide

/-- For RoundTripPseudoInstructionExpands too. -/
theorem witness_RoundTripProgramRestoresTheValue :
    ([0, 0, 0, 0, 0, 0, 0, 0x96] : List Byte).length = 8 ∧
    assemble (.rtrip [0, 0, 0, 0, 0, 0, 0, 0x96])
      = some [0x0800000000000000000096#88, 0x6000000000000000000000#88, 0xA000000000000000000000#88] := by decide

theorem witness_EncodeRestoresEveryCanonicalBuffer :
    (1 ≤ ([0x96, 0x01] : List Byte).length ∧ ([0x96, 0x01] : List Byte).length ≤ 10 ∧
      (∀ i b, ([0x96, 0x01] : List Byte)[i]? = some b →
        b.getLsbD 7 = decide (i + 1 < ([0x96, 0x01] : List Byte).length)) ∧
      (([0x96, 0x01] : List Byte).getLast? = some 0 → ([0x96, 0x01] : List Byte).length = 1) ∧
      decodeNat 2 (pack [0x96, 0x01]) < 2 ^ 64) ∧
    ([0x00] : List Byte).length = 1 ∧ decodeNat 1 (pack [0x00]) < 2 ^ 64 := by
  refine ⟨⟨by decide, by decide, fun i b h => ?_, by decide, by decide⟩, by decide, by decide⟩
  match i, h with
  | 0, h => cases h; decide
  | 1, h => cases h; decide

theorem witness_IllTypedChainsAfterEncode :
    varintLength 0 < 8 ∧ varintLength 0xFFFFFFFFFFFF < 8 ∧ varintLength 0xFFFFFFFFFFFFFF = 8 ∧
    8 < varintLength 0x100000000000000 := by decide

theorem witness_ForwardingTakesTheResultRegisters : (regs 1 2 0x9601).resStatus = 1 := by decide

theorem witness_ForwardingWithoutResultIsIllegal :
    State.reset.resStatus ≠ 1 ∧ (regs 2 0 0).resStatus ≠ 1 ∧ (regs 7 0 0).resStatus ≠ 1 := by decide

theorem witness_ErrorEntryWritesOnlyTheErrorResponse :
    triple (exec (.decode .command 11 0) State.reset) = some (3, 0, 0) ∧ (3 : StatusWord) ≠ 1 := by decide

theorem witness_ReservedWordsEndInIllegalCommand :
    (0xC000000000000000000000#88).extractLsb' 86 2 = (3 : BitVec 2) ∧
    (0x1000000000000000000000#88).getLsbD 84 = true := by decide

theorem witness_UnusedFieldsChangeNothing :
    (0xABCD0000000000000096 : Wide).extractLsb' 0 64 = (0x96 : Wide).extractLsb' 0 64 ∧
    (0xFFFF9601 : Wide).extractLsb' 0 (8 * (2 : Len).toNat) = (0x9601 : Wide).extractLsb' 0 (8 * (2 : Len).toNat) := by decide

theorem witness_ResponseDependsOnWordAndForwardedRegistersOnly :
    ((0x4000000000000000000096#88).getLsbD 85 = true → (regs 2 0 0).response = (regs 1 8 5).response) ∧
    ((0x6000000000000000000000#88).getLsbD 85 = true → (regs 1 8 5).response = ((regs 1 8 5).issueLast 0).response) := by
  decide

theorem witness_BlocksShareNothing : [State.reset, regs 1 8 5][1]? = some (regs 1 8 5) ∧ (0 : Nat) ≠ 1 := by decide

theorem witness_AssembledLinesReadBack :
    ((15 : Nat) < 16 ∧ ([1, 2, 3, 4, 5, 6, 7, 8] : List Byte).length = min 15 8) ∧
    ([0xDE, 0xAD, 0xBE, 0xEF] : List Byte).length = min 4 8 ∧ ([] : List Byte).length = min 0 8 ∧
    (2 ^ 64 - 1 < 2 ^ 64) ∧ (2 ^ 80 - 1 < 2 ^ 80) := by decide

end Sys2Proof.Tests
end

section
/-! PROOFS. The register triple (10_state.md R21 to R24, R31): what a command leaves there, what a step may change, and the
invariant that reset meets and every step keeps. -/

namespace Sys2Proof.Machine

/-! ## What a command can complete with -/

/-- PARSE completes with a Value only (R93). -/
theorem parseOperand_ok {o : Operand} {r : Result} (h : parseOperand o = .ok r) : ∃ v, r = valueResult v := by
  unfold parseOperand at h
  split at h
  · cases h
  · split at h
    · cases h
    · cases h; exact ⟨_, rfl⟩

/-- ENCODE completes with the VarintBuffer of a Value only (R107). -/
theorem encodeOperand_ok {o : Operand} {r : Result} (h : encodeOperand o = .ok r) :
    ∃ v, r = varintResult (encodeValue v) := by
  cases h; exact ⟨_, rfl⟩

/-- DECODE completes with a Value only (R128). -/
theorem decodeOperand_ok {o : Operand} {r : Result} (h : decodeOperand o = .ok r) : ∃ v, r = valueResult v := by
  simp only [decodeOperand] at h
  split at h
  · cases h
  · split at h
    · cases h
    · split at h
      · cases h
      · cases h; exact ⟨_, rfl⟩

/-! ## The triple after a response -/

/-- A Value is 8 bytes long, and its upper two bytes are 0 (R62). -/
theorem complete_valueResult_holdsResult (v : Value) (s : State) : (complete (valueResult v) s).HoldsResult := by
  have hdata : (v.setWidth 80).toNat < 2 ^ 64 := by
    rw [BitVec.toNat_setWidth]
    exact (Nat.mod_le _ _).trans_lt v.isLt
  exact ⟨show 1 ≤ 8 by decide, show 8 ≤ 10 by decide, hdata⟩

/-- A VarintBuffer of a Value is 1 to 10 bytes long, and its packed form has no bit above them (R67, R106). -/
theorem complete_varintResult_holdsResult (v : Value) (s : State) :
    (complete (varintResult (encodeValue v)) s).HoldsResult := by
  have hpos := encodeValue_length_pos v
  have hle := encodeValue_length_le_ten v
  have hlen : (varintResult (encodeValue v)).len.toNat = (encodeValue v).length := by
    rw [varintResult, BitVec.toNat_ofNat]
    exact Nat.mod_eq_of_lt (by omega)
  have hdata : (varintResult (encodeValue v)).data.toNat < 2 ^ (8 * (encodeValue v).length) := by
    rw [varintResult, pack_toNat hle]
    exact bytesNat_lt _
  simp only [State.HoldsResult, complete_resLen, complete_resData, hlen]
  exact ⟨hpos, hle, hdata⟩

/-- What any of the three operations completes with is a result as R23 and R24 describe it. -/
theorem complete_holdsResult {o : Operand} {r : Result}
    (h : parseOperand o = .ok r ∨ encodeOperand o = .ok r ∨ decodeOperand o = .ok r) (s : State) :
    (complete r s).HoldsResult := by
  obtain h | h | h := h
  · obtain ⟨v, rfl⟩ := parseOperand_ok h
    exact complete_valueResult_holdsResult v s
  · obtain ⟨v, rfl⟩ := encodeOperand_ok h
    exact complete_varintResult_holdsResult v s
  · obtain ⟨v, rfl⟩ := decodeOperand_ok h
    exact complete_valueResult_holdsResult v s

/-- Beside `OK` the invariant asks for a result and no more. -/
theorem complete_inv {r : Result} {s : State} (h : (complete r s).HoldsResult) : (complete r s).Inv :=
  ⟨by rw [complete_resStatus]; decide, fun _ => h, fun hne => absurd (complete_resStatus r s) hne⟩

/-- Error entry leaves a sound triple: a code up to 4, and two zeros (R166). -/
theorem raise_inv (e : CodecError) (s : State) : (raise e s).Inv :=
  ⟨by rw [raise_resStatus]; cases e <;> decide, fun hok => absurd hok e.code_ne_ok, fun _ => ⟨rfl, rfl⟩⟩

/-- An error is never reported as `IDLE` (R22). -/
theorem CodecError.code_ne_idle (e : CodecError) : e.code ≠ statusIdle := by
  cases e <;> decide

/-- Reset leaves a sound triple (R190). -/
theorem State.assertReset_inv (s : State) : s.assertReset.Inv :=
  ⟨by rw [s.assertReset_resStatus]; decide, fun hok => absurd hok (by rw [s.assertReset_resStatus]; decide),
    fun _ => ⟨rfl, rfl⟩⟩

/-- The invariant speaks of the registers only, not of what the host does next. -/
theorem State.inv_setPending (s : State) (rest : List HostAction) :
    State.Inv { s with pending := rest } ↔ s.Inv := Iff.rfl

/-- What the host reads does not depend on what it does next. -/
@[simp] theorem State.response_setPending (s : State) (rest : List HostAction) :
    State.response { s with pending := rest } = s.response := rfl

/-! ## A command and a step -/

/-- A command from any state answers a sound state whose status is not `IDLE`. -/
theorem exec_next_inv (i : Instr) (s : State) :
    ∃ t, exec i s = .next t ∧ t.Inv ∧ t.resStatus ≠ statusIdle := by
  obtain ⟨e, he⟩ | ⟨o, r, hr, hop⟩ := exec_cases i s
  · exact ⟨_, he, raise_inv e s, e.code_ne_idle⟩
  · exact ⟨_, hr, complete_inv (complete_holdsResult hop s), by rw [complete_resStatus]; decide⟩

/-- A command takes nothing from the host's list and adds nothing to it. -/
theorem exec_pending {i : Instr} {s t : State} (h : exec i s = .next t) : t.pending = s.pending := by
  obtain ⟨e, he⟩ | ⟨o, r, hr, -⟩ := exec_cases i s
  · cases he.symm.trans h
    exact raise_pending e s
  · cases hr.symm.trans h
    exact complete_pending r s

/-- Settles O16: of the things a step can do, a command and a reset write a sound triple, whatever was there; a read and an
idle step keep the triple. -/
theorem stepKeepsTheTripleSound : Obligations.StepKeepsTheTripleSound := by
  intro s hs
  obtain ⟨-, h⟩ | ⟨w, rest, -, h⟩ | ⟨rest, -, h⟩ | ⟨a, rest, -, -, h⟩ := step_cases s
  · exact ⟨s, h, hs⟩
  · obtain ⟨t, ht, hinv, -⟩ := exec_next_inv (decode w) { s with pending := rest }
    exact ⟨t, h.trans ht, hinv⟩
  · exact ⟨_, h, (s.inv_setPending rest).2 hs⟩
  · exact ⟨_, h, State.assertReset_inv _⟩

/-- Settles O7: the two things a step can do without a command or a reset, a read and nothing, leave the response as it
was. -/
theorem onlyCommandsAndResetWriteTheRegisters : Obligations.OnlyCommandsAndResetWriteTheRegisters := by
  intro s t hst
  obtain ⟨hp, h⟩ | ⟨w, rest, hp, h⟩ | ⟨rest, hp, h⟩ | ⟨a, rest, hp, ha, h⟩ := step_cases s
  · cases h.symm.trans hst
    exact ⟨by rw [hp]; rfl, fun hne => absurd rfl hne⟩
  · have hpending : t.pending = rest := exec_pending (h.symm.trans hst)
    exact ⟨by rw [hpending, hp]; rfl, fun _ => .inl ⟨w, by rw [hp]; rfl⟩⟩
  · cases h.symm.trans hst
    exact ⟨by rw [hp]; rfl, fun hne => absurd (s.response_setPending rest) hne⟩
  · cases h.symm.trans hst
    refine ⟨by rw [hp]; rfl, fun _ => .inr ?_⟩
    obtain rfl | ⟨w, rfl⟩ := ha
    · exact .inl (by rw [hp]; rfl)
    · exact .inr ⟨w, by rw [hp]; rfl⟩

/-- Settles O15: an instruction ends in an error or in the result of an operation, and either leaves a sound triple. -/
theorem everyCommandLeavesASoundTriple : Obligations.EveryCommandLeavesASoundTriple :=
  exec_next_inv

/-- Settles O1: `State.reset` is written out with the three zeros of R31. -/
theorem resetLeavesAllRegistersZero : Obligations.ResetLeavesAllRegistersZero :=
  ⟨rfl, rfl, rfl⟩

/-- Settles O3: with a read first in the host's list, or with nothing there, `nextAction` leaves one arm of the step. -/
theorem readsAndIdleStepsChangeNoRegister : Obligations.ReadsAndIdleStepsChangeNoRegister := by
  refine ⟨fun s rest => rfl, fun s hnil => ?_⟩
  obtain ⟨-, h⟩ | ⟨a, rest, hcons, -⟩ := s.nextAction_cases
  · simp only [step, h]
  · cases hnil.symm.trans hcons

/-- Settles O14: the reset state is one that the reset action leaves. -/
theorem resetStateIsSound : Obligations.ResetStateIsSound :=
  State.assertReset_inv State.reset

end Sys2Proof.Machine
end

section
/-! PROOFS. A register as a string of bytes (20_memory.md R45, R67): its bytes, most significant first, are the digits of its
number in base 256. -/

namespace Sys2Proof.Machine

/-- A byte is the digit of the number its string spells, at the place given by the bytes after it. -/
theorem bytesNat_digit (xs : List Byte) (b : Byte) (ys : List Byte) :
    bytesNat (xs ++ b :: ys) / 2 ^ (8 * ys.length) % 256 = b.toNat := by
  have hsum : bytesNat (xs ++ b :: ys) = 2 ^ (8 * ys.length) * (256 * bytesNat xs + b.toNat) + bytesNat ys := by
    rw [bytesNat_append, bytesNat, List.length_cons, Nat.mul_add, Nat.pow_add]
    ring
  rw [hsum, Nat.mul_add_div (Nat.two_pow_pos _), Nat.div_eq_of_lt (bytesNat_lt ys), Nat.add_zero, Nat.mul_add_mod]
  exact Nat.mod_eq_of_lt b.isLt

/-- Zero bytes in front do not change the number. -/
theorem bytesNat_replicate_zero_append (k : Nat) (bs : List Byte) :
    bytesNat (List.replicate k 0 ++ bs) = bytesNat bs := by
  induction k with
  | zero => rfl
  | succ k ih => simpa [List.replicate_succ, bytesNat] using ih

/-- Wide data that holds the number of a string of bytes holds that string, first byte most significant (R67). -/
theorem varintBytes_of_toNat {bs : List Byte} {data : Wide} (h : data.toNat = bytesNat bs) :
    varintBytes bs.length data = bs := by
  refine List.ext_getElem (by simp [varintBytes]) fun i _ hi => ?_
  have hplace : (bs.drop (i + 1)).length = bs.length - 1 - i := by rw [List.length_drop]; omega
  have hdigit := bytesNat_digit (bs.take i) bs[i] (bs.drop (i + 1))
  rw [List.getElem_cons_drop, List.take_append_drop, hplace, ← h] at hdigit
  apply BitVec.eq_of_toNat_eq
  simpa [varintBytes, varintByte, Nat.shiftRight_eq_div_pow] using hdigit

/-- All ten bytes of wide data that holds the number of a shorter string: zeros, then the string (R45). -/
theorem varintBytes_ten_of_toNat {bs : List Byte} {data : Wide} (hlen : bs.length ≤ 10)
    (h : data.toNat = bytesNat bs) : varintBytes 10 data = List.replicate (10 - bs.length) 0 ++ bs := by
  have hpad := varintBytes_of_toNat (h.trans (bytesNat_replicate_zero_append (10 - bs.length) bs).symm)
  rwa [List.length_append, List.length_replicate, Nat.sub_add_cancel hlen] at hpad

/-- Settles O44: the ten bytes read are `varintBytes 10`, and both the packed form and the Value of RawBytes hold the number
that their string spells. -/
theorem hostSeesBytesInSequenceOrder : Obligations.HostSeesBytesInSequenceOrder := by
  refine ⟨fun v => ?_, fun rb hrb => ?_⟩
  · have hlen := encodeValue_length_le_ten v
    exact varintBytes_ten_of_toNat hlen (pack_toNat hlen)
  · have hnum : ((parseValue rb).setWidth 80).toNat = bytesNat rb := by
      rw [BitVec.toNat_setWidth_of_le (by decide), parseValue_toNat hrb.le]
    have hten := varintBytes_ten_of_toNat (by omega) hnum
    rwa [hrb] at hten

end Sys2Proof.Machine
end

section
/-! PROOFS. The command word (30_encoding.md R71 to R78): what the decoder answers, as equations over the word's fields,
and the header patterns of the opcode table in the same fields. -/

namespace Sys2Proof

/-! ## The fields and the decoder -/

/-- The source that a `src` bit selects has that bit (R75). -/
theorem bit_sourceOfBit (b : BitVec 1) : (sourceOfBit b).bit = b := by
  revert b; decide

/-- The word put together from a word's own fields is that word (R71). -/
theorem assembleWord_fields (w : CommandWord) :
    assembleWord (CommandWord.op w) (sourceOfBit (CommandWord.src w)) (CommandWord.rsv w) (CommandWord.len w)
      (CommandWord.data w) = w := by
  rw [assembleWord, bit_sourceOfBit, word_eq_fields]

/-- Bit 85 read as R75 reads it is the source the decoder finds. -/
theorem sourceOfBit_src (w : CommandWord) :
    sourceOfBit (CommandWord.src w) = if w.getLsbD 85 then .results else .command := by
  have hbit : CommandWord.src w = BitVec.ofBool (w.getLsbD 85) :=
    BitVec.eq_of_getLsbD_eq fun i hi => by
      obtain rfl : i = 0 := by omega
      simp [CommandWord.src]
  rw [hbit]
  cases w.getLsbD 85 <;> rfl

/-- The decoder on a word put together from its fields (R78). -/
theorem decode_assembleWord (op : BitVec 2) (src : OperandSource) (rsv : BitVec 1) (len : Len) (data : Wide) :
    decode (assembleWord op src rsv len data) =
      if rsv = 1 then .reservedRsv1 op src len data
      else if op = 3 then .reservedOp3 src false len data
      else if op = 0 then .parse src len data
      else if op = 1 then .encode src len data
      else .decode src len data := by
  simp only [decode, assembleWord_op, assembleWord_src, assembleWord_rsv, assembleWord_len, assembleWord_data,
    sourceOfBit_bit]

/-- What the decoder can answer: the five rows of R78, told apart by `rsv` and `op`. -/
theorem decode_cases (w : CommandWord) :
    (CommandWord.rsv w = 1 ∧ decode w = .reservedRsv1 (CommandWord.op w) (sourceOfBit (CommandWord.src w))
      (CommandWord.len w) (CommandWord.data w)) ∨
    (CommandWord.rsv w = 0 ∧ CommandWord.op w = 3 ∧ decode w = .reservedOp3 (sourceOfBit (CommandWord.src w)) false
      (CommandWord.len w) (CommandWord.data w)) ∨
    (CommandWord.rsv w = 0 ∧ CommandWord.op w = 0 ∧ decode w = .parse (sourceOfBit (CommandWord.src w))
      (CommandWord.len w) (CommandWord.data w)) ∨
    (CommandWord.rsv w = 0 ∧ CommandWord.op w = 1 ∧ decode w = .encode (sourceOfBit (CommandWord.src w))
      (CommandWord.len w) (CommandWord.data w)) ∨
    (CommandWord.rsv w = 0 ∧ CommandWord.op w = 2 ∧ decode w = .decode (sourceOfBit (CommandWord.src w))
      (CommandWord.len w) (CommandWord.data w)) := by
  have hrsv : ∀ b : BitVec 1, b = 1 ∨ b = 0 := by decide
  have hop : ∀ b : BitVec 2, b = 3 ∨ b = 0 ∨ b = 1 ∨ b = 2 := by decide
  obtain h1 | h0 := hrsv (CommandWord.rsv w)
  · exact .inl ⟨h1, by simp [decode, h1]⟩
  · obtain h | h | h | h := hop (CommandWord.op w)
    · exact .inr (.inl ⟨h0, h, by simp [decode, h0, h]⟩)
    · exact .inr (.inr (.inl ⟨h0, h, by simp [decode, h0, h]⟩))
    · exact .inr (.inr (.inr (.inl ⟨h0, h, by simp [decode, h0, h]⟩)))
    · exact .inr (.inr (.inr (.inr ⟨h0, h, by simp [decode, h0, h]⟩)))

/-- Settles O9: `decode_assembleWord` at the `op` and `rsv` of each row; a well-formed RESERVED_OP3 has `rsv = 0`. -/
theorem decodeOfEncodeIsTheInstruction : Obligations.DecodeOfEncodeIsTheInstruction := by
  intro i hi
  cases i with
  | parse src len data => exact decode_assembleWord 0 src 0 len data
  | encode src len data => exact decode_assembleWord 1 src 0 len data
  | decode src len data => exact decode_assembleWord 2 src 0 len data
  | reservedOp3 src rsv len data =>
    obtain rfl : rsv = false := by simpa [Instr.wellFormed] using hi
    exact decode_assembleWord 3 src 0 len data
  | reservedRsv1 op src len data => exact decode_assembleWord op src 1 len data

/-- Settles O10: in each row the instruction keeps the fields that its row does not fix, so its word is the one put
together from the fields of `w`. -/
theorem encodeOfDecodeIsTheWord : Obligations.EncodeOfDecodeIsTheWord := by
  intro w
  have hw := assembleWord_fields w
  obtain ⟨hr, h⟩ | ⟨hr, ho, h⟩ | ⟨hr, ho, h⟩ | ⟨hr, ho, h⟩ | ⟨hr, ho, h⟩ := decode_cases w
  · rw [hr] at hw
    rw [h]; exact ⟨rfl, hw⟩
  all_goals
    rw [hr, ho] at hw
    rw [h]; exact ⟨rfl, hw⟩

/-! ## Match and mask -/

/-- The header's top four bits are `op`, `src` and `rsv` (R71). -/
theorem extract_header (w : CommandWord) :
    w.extractLsb' 84 4 = CommandWord.op w ++ (CommandWord.src w ++ CommandWord.rsv w) := by
  have h := Laws.assembleWord_header (CommandWord.op w) (sourceOfBit (CommandWord.src w)) (CommandWord.rsv w)
    (CommandWord.len w) (CommandWord.data w)
  rwa [assembleWord_fields, bit_sourceOfBit] at h

/-- A match against a value and a mask of the header's top four bits is one on `op`, `src` and `rsv` (R78). -/
theorem and_mask_eq_iff (w : CommandWord) (m v : BitVec 4) :
    w &&& (m ++ 0#84) = v ++ 0#84 ↔ (CommandWord.op w ++ (CommandWord.src w ++ CommandWord.rsv w)) &&& m = v := by
  rw [and_headerMask, extract_header]
  exact ⟨fun h => by simpa only [extract_append_high] using congrArg (·.extractLsb' 84 4) h, fun h => by rw [h]⟩

/-- The mask of the three operations looks at `op` and `rsv` (R78). -/
theorem and_operationMask_eq_iff (w : CommandWord) (op : BitVec 2) :
    w &&& 0xD000000000000000000000#88 = (op ++ 0#2) ++ 0#84 ↔ CommandWord.rsv w = 0 ∧ CommandWord.op w = op := by
  have hfields : ∀ (o op : BitVec 2) (s r : BitVec 1), (o ++ (s ++ r)) &&& 0xD#4 = op ++ 0#2 ↔ r = 0 ∧ o = op := by
    decide
  exact (and_mask_eq_iff w 0xD (op ++ 0#2)).trans (hfields _ _ _ _)

/-- The mask of RESERVED_OP3 looks at `op` (R78). -/
theorem and_op3Mask_eq_iff (w : CommandWord) :
    w &&& 0xC000000000000000000000#88 = 0xC000000000000000000000#88 ↔ CommandWord.op w = 3 := by
  have hfields : ∀ (o : BitVec 2) (s r : BitVec 1), (o ++ (s ++ r)) &&& 0xC#4 = 0xC ↔ o = 3 := by decide
  exact (and_mask_eq_iff w 0xC 0xC).trans (hfields _ _ _)

/-- The mask of RESERVED_RSV1 looks at `rsv` (R78). -/
theorem and_rsv1Mask_eq_iff (w : CommandWord) :
    w &&& 0x1000000000000000000000#88 = 0x1000000000000000000000#88 ↔ CommandWord.rsv w = 1 := by
  have hfields : ∀ (o : BitVec 2) (s r : BitVec 1), (o ++ (s ++ r)) &&& 0x1#4 = 0x1 ↔ r = 1 := by decide
  exact (and_mask_eq_iff w 0x1 0x1).trans (hfields _ _ _)

/-- The words that decode to a well-formed instruction are its own word only. -/
theorem decode_eq_iff {i : Instr} (hi : i.wellFormed) (w : CommandWord) : decode w = i ↔ w = encode i := by
  constructor
  · rintro rfl
    exact (encodeOfDecodeIsTheWord w).2.symm
  · rintro rfl
    exact decodeOfEncodeIsTheInstruction i hi

/-- A word with other `op` and `rsv` written over its own is itself exactly when they are its own. -/
theorem eq_assembleWord_iff (w : CommandWord) (op : BitVec 2) (rsv : BitVec 1) :
    w = assembleWord op (sourceOfBit (CommandWord.src w)) rsv (CommandWord.len w) (CommandWord.data w) ↔
      CommandWord.rsv w = rsv ∧ CommandWord.op w = op := by
  constructor
  · intro h
    have hrsv := congrArg CommandWord.rsv h
    have hop := congrArg CommandWord.op h
    rw [assembleWord_rsv] at hrsv
    rw [assembleWord_op] at hop
    exact ⟨hrsv, hop⟩
  · rintro ⟨rfl, rfl⟩
    exact (assembleWord_fields w).symm

/-- Settles O11: the masks read `op` and `rsv` alone; and a word that decodes to an instruction is that instruction's word,
which fixes these two fields. -/
theorem decoderAgreesWithMatchAndMask : Obligations.DecoderAgreesWithMatchAndMask := by
  intro w
  rw [← sourceOfBit_src, and_op3Mask_eq_iff, and_rsv1Mask_eq_iff]
  refine ⟨?_, ?_, ?_, ?_, ?_⟩
  · rw [decode_eq_iff rfl]
    exact (and_operationMask_eq_iff w 0).trans (eq_assembleWord_iff w 0 0).symm
  · rw [decode_eq_iff rfl]
    exact (and_operationMask_eq_iff w 1).trans (eq_assembleWord_iff w 1 0).symm
  · rw [decode_eq_iff rfl]
    exact (and_operationMask_eq_iff w 2).trans (eq_assembleWord_iff w 2 0).symm
  · constructor
    · intro hr
      exact ⟨_, _, _, _, (decode_eq_iff rfl w).2 ((eq_assembleWord_iff w _ 1).2 ⟨hr, rfl⟩)⟩
    · rintro ⟨op, src, len, data, h⟩
      rw [(decode_eq_iff rfl w).1 h, encode, assembleWord_rsv]
  · constructor
    · rintro ⟨ho, hr⟩
      have hr0 : CommandWord.rsv w = 0 := (show ∀ b : BitVec 1, b ≠ 1 → b = 0 by decide) _ hr
      exact ⟨_, _, _, (decode_eq_iff rfl w).2 ((eq_assembleWord_iff w 3 0).2 ⟨hr0, ho⟩)⟩
    · rintro ⟨src, len, data, h⟩
      rw [(decode_eq_iff rfl w).1 h, encode, assembleWord_op, assembleWord_rsv]
      decide

/-! ## The opcode table -/

/-- The word of every instruction has the fixed bits of its row (R78). -/
theorem rowBits (i : Instr) : Laws.RowBits.Statement i := by
  cases i with
  | parse src len data => exact Laws.RowBits.parse src len data
  | encode src len data => exact Laws.RowBits.encode src len data
  | decode src len data => exact Laws.RowBits.decode src len data
  | reservedOp3 src rsv len data => exact Laws.RowBits.reservedOp3 src rsv len data
  | reservedRsv1 op src len data => exact Laws.RowBits.reservedRsv1 op src len data

/-- The table has a row for every instruction. -/
theorem exists_row_mnemonic (i : Instr) : ∃ r ∈ opcodeTable, r.mnemonic = i.mnemonic := by
  cases i <;> simp [opcodeTable, Instr.mnemonic]

/-- Every mask looks at the header's top four bits only, so a word hits the rows that its header does (R78). -/
theorem hits_eq_hits_header {r : OpcodeRow} (hr : r ∈ opcodeTable) (w : CommandWord) :
    r.hits w = r.hits (w.extractLsb' 84 4 ++ 0#84) := by
  have hmask : ∃ m : BitVec 4, r.mask = m ++ 0#84 := by
    simp only [opcodeTable, List.mem_cons, List.not_mem_nil, or_false] at hr
    obtain rfl | rfl | rfl | rfl | rfl := hr
    exacts [⟨0xD, rfl⟩, ⟨0xD, rfl⟩, ⟨0xD, rfl⟩, ⟨0xC, rfl⟩, ⟨0x1, rfl⟩]
  obtain ⟨m, hm⟩ := hmask
  rw [OpcodeRow.hits, OpcodeRow.hits, hm, and_headerMask, and_headerMask, extract_append_high]

/-- Of the 16 headers, none hits an operation's row and another row (R78). -/
theorem header_hits_reserved : ∀ (h : BitVec 4), ∀ r ∈ opcodeTable, ∀ q ∈ opcodeTable,
    r.hits (h ++ 0#84) → q.hits (h ++ 0#84) → r ≠ q →
      r.mnemonic ∈ ["RESERVED_OP3", "RESERVED_RSV1"] ∧ q.mnemonic ∈ ["RESERVED_OP3", "RESERVED_RSV1"] := by
  decide

/-- Settles O12: `w` is the word of `decode w`, so it hits that instruction's row; which rows overlap is read off the 16
headers. -/
theorem everyWordMatchesItsTableRow : Obligations.EveryWordMatchesItsTableRow := by
  intro w
  obtain ⟨-, hw⟩ := encodeOfDecodeIsTheWord w
  obtain ⟨r, hr, hmn⟩ := exists_row_mnemonic (decode w)
  have hhits : r.hits w := by simpa only [hw] using rowBits (decode w) r hr hmn
  refine ⟨⟨r, hr, hhits, hmn⟩, fun r hr q hq hrw hqw => ?_⟩
  rw [hits_eq_hits_header hr] at hrw
  rw [hits_eq_hits_header hq] at hqw
  exact header_hits_reserved _ r hr q hq hrw hqw

/-- Settles O8: the eight words are literals, and the decoder is run on each. -/
theorem writtenWordsDecodeAsListed : Obligations.WrittenWordsDecodeAsListed := by
  unfold Obligations.WrittenWordsDecodeAsListed
  decide

/-- The table word of a command word is that word (R71). -/
theorem tableWord_toNat (w : CommandWord) : tableWord 88 w.toNat = w := by
  rw [tableWord, Nat.mod_eq_of_lt w.isLt, BitVec.ofNat_toNat, BitVec.setWidth_eq]

/-- Settles O5: reading a word of 88 bits from the table loses nothing, and `withFetchWord` puts it first in the host's
list. -/
theorem fetchedTableWordIsDecodedAndRun : Obligations.FetchedTableWordIsDecodedAndRun := by
  intro s w
  constructor
  · rw [decodeTableWord, tableWord_toNat, if_pos (Nat.mod_lt _ (by decide))]
  · rw [Machine.State.withFetchWord, tableWord_toNat]
    rfl

end Sys2Proof
end

section
/-! PROOFS. Strings of bytes and the words they are read from: a command as 11 bytes (30_encoding.md R71), a packed
VarintBuffer and its bytes (R67, 20_memory.md R44). -/

namespace Sys2Proof.Machine

/-- The loop that reads a string of bytes multiplies what it has by 256 for each byte. -/
theorem foldl_eq_bytesNat (bs : List Byte) (acc : Nat) :
    bs.foldl (fun acc b => acc * 256 + b.toNat) acc = acc * 2 ^ (8 * bs.length) + bytesNat bs := by
  induction bs generalizing acc with
  | nil => simp [bytesNat]
  | cons b rest ih =>
    rw [List.foldl_cons, ih, bytesNat, List.length_cons, Nat.mul_add 8, Nat.pow_add]
    ring

/-- The low `n` bytes of a word, most significant first, spell the number of its low `8n` bits. -/
theorem bytesNat_lowBytes {m : Nat} (x : BitVec m) (n : Nat) :
    bytesNat ((List.range n).map fun i => x.extractLsb' (8 * (n - 1 - i)) 8) = x.toNat % 2 ^ (8 * n) := by
  induction n with
  | zero => simp [bytesNat, Nat.mod_one]
  | succ n ih =>
    have hrest : (List.range n).map ((fun i => x.extractLsb' (8 * (n + 1 - 1 - i)) 8) ∘ Nat.succ)
        = (List.range n).map fun i => x.extractLsb' (8 * (n - 1 - i)) 8 :=
      List.map_congr_left fun i _ => by
        simp only [Function.comp_apply, show n + 1 - 1 - i.succ = n - 1 - i by omega]
    rw [List.range_succ_eq_map, List.map_cons, List.map_map, hrest, bytesNat, ih, Nat.mul_add 8, Nat.pow_add,
      Nat.mod_mul]
    simp only [BitVec.extractLsb'_toNat, List.length_map, List.length_range, Nat.shiftRight_eq_div_pow, Nat.sub_zero,
      Nat.add_sub_cancel]
    ring

/-- Reading the 11 bytes of a word gives its number (R71). -/
theorem wordOfBytes_bytesOfWord (w : CommandWord) : wordOfBytes (bytesOfWord w) = w.toNat := by
  have hbytes : bytesNat (bytesOfWord w) = w.toNat % 2 ^ (8 * 11) := bytesNat_lowBytes w 11
  rw [wordOfBytes, foldl_eq_bytesNat, hbytes, Nat.zero_mul, Nat.zero_add]
  exact Nat.mod_eq_of_lt w.isLt

@[simp] theorem length_bytesOfWord (w : CommandWord) : (bytesOfWord w).length = 11 := rfl

/-- Settles O13: the first 11 bytes are those of `w`, which spell its number. -/
theorem elevenBytesReadAsTheirWord : Obligations.ElevenBytesReadAsTheirWord := by
  refine ⟨fun w rest => ⟨?_, rfl⟩, fun bytes h => if_pos h⟩
  have hlen : ¬ (bytesOfWord w ++ rest).length < 11 := by simp
  rw [decodeBytes, if_neg hlen, List.take_left' (length_bytesOfWord w), List.drop_left' (length_bytesOfWord w),
    wordOfBytes_bytesOfWord, BitVec.ofNat_toNat, BitVec.setWidth_eq]

/-- The packed form of a VarintBuffer holds its bytes (R67). -/
theorem varintBytes_pack {vb : List Byte} (h : vb.length ≤ 10) : varintBytes vb.length (pack vb) = vb :=
  varintBytes_of_toNat (pack_toNat h)

/-- Byte `k` of the packed form is the byte with `k` bytes after it (R67). -/
theorem getElem?_eq_extract_pack {vb : List Byte} (h : vb.length ≤ 10) {k : Nat} (hk : k < vb.length) :
    vb[vb.length - 1 - k]? = some ((pack vb).extractLsb' (8 * k) 8) := by
  have hplace : vb.length - 1 - (vb.length - 1 - k) = k := by omega
  conv_lhs => rw [← varintBytes_pack h]
  simp [varintBytes, varintByte, hplace, show vb.length - 1 - k < vb.length by omega]

/-- Packing the bytes of a data field keeps them and drops what lies above (R67, R121). -/
theorem pack_varintBytes {n : Nat} (h : n ≤ 10) (data : Wide) : pack (varintBytes n data) = packedForm n data := by
  have hlen : (varintBytes n data).length ≤ 10 := by simpa [varintBytes] using h
  apply BitVec.eq_of_toNat_eq
  rw [pack_toNat hlen, packedForm_toNat h]
  exact bytesNat_lowBytes data n

/-- Settles O43: the packed form is the number that its bytes spell in base 256, so each is read off the other. -/
theorem packedFormAndByteSequenceAgree : Obligations.PackedFormAndByteSequenceAgree :=
  ⟨fun _ h => ⟨varintBytes_pack h, fun _ hk => getElem?_eq_extract_pack h hk⟩, fun _ data h => pack_varintBytes h data⟩

end Sys2Proof.Machine
end

section
/-! PROOFS. The continuation bits of an ENCODE result (R65, R69, R147). -/

namespace Sys2Proof.Machine

/-- Bit 7 of a byte of the working list says whether bits remain after the shift (R103). -/
theorem getLsbD_seven_chunkByte (rem : Value) : (chunkByte rem).getLsbD 7 = decide (rem >>> Config.chunkW ≠ 0) := by
  rw [chunkByte]
  by_cases h : rem >>> Config.chunkW = 0
  · rw [if_neg (not_not.2 h)]
    simp [h]
  · rw [if_pos h]
    simpa [continuationMask, Config.contBit] using h

/-- Bit 7 of byte `i` of a VarintBuffer says whether a byte follows (R65). -/
theorem getLsbD_seven_encodeValue {v : Value} {i : Nat} {b : Byte} (h : (encodeValue v)[i]? = some b) :
    b.getLsbD 7 = decide (i + 1 < (encodeValue v).length) := by
  by_cases hv : v = 0
  · rw [hv, encodeValue_zero] at h ⊢
    obtain ⟨hi, rfl⟩ := List.getElem?_eq_some_iff.1 h
    obtain rfl : i = 0 := by simpa using hi
    simp
  · have hremain : i + 1 < (encodeValue v).length ↔ v >>> (7 * (i + 1)) ≠ 0 := by
      rw [← not_le, encodeValue_length_le v (by omega), ne_eq, ← BitVec.toNat_inj, BitVec.toNat_ushiftRight,
        Nat.shiftRight_eq_div_pow]
      simp [Nat.div_eq_zero_iff]
    rw [encodeValue_of_ne hv] at h
    obtain ⟨rfl, -⟩ := chunkLoop_getElem? _ _ _ _ h
    rw [getLsbD_seven_chunkByte, ← BitVec.shiftRight_add]
    exact decide_eq_decide.2 hremain.symm

/-- Settles O26: the packed form's byte `k` is the byte with `k` bytes after it. -/
theorem continuationBitOnEveryByteButTheLast : Obligations.ContinuationBitOnEveryByteButTheLast := by
  refine fun v => ⟨fun i b h => getLsbD_seven_encodeValue h, fun k hk => ?_⟩
  have hbit := getLsbD_seven_encodeValue (getElem?_eq_extract_pack (encodeValue_length_le_ten v) hk)
  rw [BitVec.getLsbD_extractLsb'] at hbit
  simpa [show (encodeValue v).length - 1 - k + 1 < (encodeValue v).length ↔ 0 < k by omega] using hbit

/-- Settles O27: bit 7 is set on the bytes before the last and clear on the last, so the search ends there and never
sees what follows. -/
theorem encodedBufferIsSelfDelimiting : Obligations.EncodedBufferIsSelfDelimiting := by
  intro v rest
  have hpos := encodeValue_length_pos v
  have hbit : ∀ i (hi : i < (encodeValue v).length),
      (encodeValue v)[i].getLsbD 7 = decide (i + 1 < (encodeValue v).length) :=
    fun i hi => getLsbD_seven_encodeValue (List.getElem?_eq_getElem hi)
  have hfind : (encodeValue v).findIdx? (fun b => !b.getLsbD 7) = some ((encodeValue v).length - 1) := by
    refine List.findIdx?_eq_some_iff_getElem.2 ⟨by omega, ?_, fun j hj => ?_⟩
    · rw [hbit, decide_eq_false (by omega), Bool.not_false]
    · rw [hbit, decide_eq_true (by omega)]
      exact Bool.false_ne_true
  rw [List.findIdx?_append, hfind, Option.some_or]

end Sys2Proof.Machine
end

section
/-! PROOFS. Commands as a host writes them: the fields an operation does not use (30_encoding.md R77), operands taken
from the result registers (R75), the reserved words (R76), and the assembler's lines (R80, R81). -/

namespace Sys2Proof.Machine

/-! ## The fields an operation uses -/

/-- PARSE sees a data field only through bits 63:0 (R61). -/
theorem rawBytes_congr {data data' : Wide} (h : valueField data = valueField data') :
    rawBytes data = rawBytes data' := by
  have hlane : ∀ (d : Wide) (i : Nat), rawByte d i = (valueField d).extractLsb' (56 - 8 * i) 8 := fun d i => by
    refine BitVec.eq_of_getLsbD_eq fun j hj => ?_
    simp only [rawByte, valueField, BitVec.getLsbD_extractLsb', Nat.zero_add, show 56 - 8 * i + j < 64 by omega,
      decide_true, Bool.true_and]
  refine List.map_congr_left fun i _ => ?_
  rw [hlane, hlane, h]

/-- DECODE of `n` bytes sees a data field only through its low `8n` bits (R67, R120). -/
theorem decodeOperand_congr {len : Len} {data data' : Wide}
    (h : data.extractLsb' 0 (8 * len.toNat) = data'.extractLsb' 0 (8 * len.toNat)) :
    decodeOperand ⟨len, data⟩ = decodeOperand ⟨len, data'⟩ := by
  have hnat : decodeNat len.toNat data = decodeNat len.toNat data' := by
    rw [decodeNat, decodeNat, packedForm, packedForm, h]
  simp only [decodeOperand, hnat]

/-- A command that carries its operand sees it only through its operation. -/
theorem runOperation_command_congr {f : Operand → Except CodecError Result} {len len' : Len} {data data' : Wide}
    (h : f ⟨len, data⟩ = f ⟨len', data'⟩) (s : State) :
    runOperation f .command len data s = runOperation f .command len' data' s := by
  rw [runOperation_ready f (.inl rfl), runOperation_ready f (.inl rfl)]
  exact congrArg (finish · s) h

/-- Settles O54: each operation sees its data through `valueField` or `packedForm`, and a forwarded operand comes from the
registers before any field of the word is looked at. -/
theorem unusedFieldsChangeNothing : Obligations.UnusedFieldsChangeNothing := by
  intro len len' data data' s
  refine ⟨fun h => ⟨?_, ?_⟩, fun h => ?_, rfl, rfl, rfl⟩
  · have hop : encodeOperand ⟨len, data⟩ = encodeOperand ⟨len', data'⟩ :=
      congrArg (fun v => Except.ok (varintResult (encodeValue v))) h
    exact congrArg Host.Outcome.next (runOperation_command_congr hop s)
  · have hop : parseOperand ⟨len, data⟩ = parseOperand ⟨len, data'⟩ := by
      rw [parseOperand, parseOperand, rawBytes_congr h]
    exact congrArg Host.Outcome.next (runOperation_command_congr hop s)
  · exact congrArg Host.Outcome.next (runOperation_command_congr (decodeOperand_congr h) s)

/-- A forwarded operation is the operation on the registers' content (R75). -/
theorem runOperation_results (f : Operand → Except CodecError Result) (len : Len) (data : Wide) {s : State}
    (h : s.resStatus = statusOk) :
    runOperation f .results len data s = runOperation f .command s.resLen s.resData s := by
  rw [runOperation_ready f (.inr h), runOperation_ready f (.inl rfl)]
  rfl

/-- Settles O49: each of the three instructions is `runOperation` of its operation. -/
theorem forwardingTakesTheResultRegisters : Obligations.ForwardingTakesTheResultRegisters :=
  fun len data _ h =>
    ⟨congrArg _ (runOperation_results parseOperand len data h),
      congrArg _ (runOperation_results encodeOperand len data h),
      congrArg _ (runOperation_results decodeOperand len data h)⟩

/-- A word with `op = 3` or `rsv = 1` decodes to a reserved instruction (R76, R78). -/
theorem decode_of_reserved {w : CommandWord} (h : CommandWord.op w = 3 ∨ CommandWord.rsv w = 1) :
    (∃ src rsv len data, decode w = .reservedOp3 src rsv len data) ∨
    ∃ op src len data, decode w = .reservedRsv1 op src len data := by
  by_cases hr : CommandWord.rsv w = 1
  · exact .inr ⟨_, _, _, _, by rw [decode, if_pos hr]⟩
  · exact .inl ⟨_, _, _, _, by rw [decode, if_neg hr, if_pos (h.resolve_right hr)]⟩

/-- Settles O53: both reserved rows answer with error entry, and the decoder reads such a word as one of them. -/
theorem reservedWordsEndInIllegalCommand : Obligations.ReservedWordsEndInIllegalCommand := by
  refine ⟨fun _ _ _ _ _ => rfl, fun _ _ _ _ _ => rfl, fun w s h => ?_⟩
  have hfields : CommandWord.op w = 3 ∨ CommandWord.rsv w = 1 := h.imp_right fun hbit => by
    refine BitVec.eq_of_getLsbD_eq fun i hi => ?_
    obtain rfl : i = 0 := by omega
    simpa [CommandWord.rsv] using hbit
  obtain ⟨src, rsv, len, data, hw⟩ | ⟨op, src, len, data, hw⟩ := decode_of_reserved hfields
  · rw [hw]; rfl
  · rw [hw]; rfl

/-! ## The assembler -/

/-- A line that R80 admits gives its words. -/
theorem assemble_of_wellFormed {line : AsmLine} (h : line.wellFormed = true) : assemble line = some (lineWords line) :=
  if_pos h

/-- Zero bytes pack to 0. -/
theorem pack_replicate_zero (k : Nat) : pack (List.replicate k 0) = 0 := by
  induction k with
  | zero => rfl
  | succ k ih =>
    rw [List.replicate_succ, pack, ih]
    simp

/-- The bytes of `PARSE n:` stand on their lanes as the packed form of them and the zeros behind them (R61). -/
theorem placeRaw_eq_pack (bs : List Byte) (i : Nat) (h : i + bs.length ≤ 8) :
    placeRaw bs i = pack (bs ++ List.replicate (8 - i - bs.length) 0) := by
  induction bs generalizing i with
  | nil => rw [placeRaw, List.nil_append, pack_replicate_zero]
  | cons b rest ih =>
    rw [List.length_cons] at h ⊢
    have hpad : 8 - i - (rest.length + 1) = 8 - (i + 1) - rest.length := by omega
    have hlane :
        Config.byteW * (rest ++ List.replicate (8 - (i + 1) - rest.length) (0 : Byte)).length = 56 - 8 * i := by
      simp only [List.length_append, List.length_replicate, Config.byteW]
      omega
    rw [hpad, List.cons_append, placeRaw, pack, hlane, ih (i + 1) (by omega)]

/-- The RawBytes of a data field are its 8 low bytes, most significant first (R61). -/
theorem rawBytes_eq_varintBytes (data : Wide) : rawBytes data = varintBytes 8 data := by
  refine List.map_congr_left fun i hi => ?_
  rw [rawByte, varintByte, show 8 * (8 - 1 - i) = 56 - 8 * i by omega]

/-- The lanes of `PARSE n:` read back: the listed bytes, then zeros; nothing above bit 63 (R61, R80). -/
theorem placeRaw_readsBack {bs : List Byte} (h : bs.length ≤ 8) :
    (placeRaw bs 0).extractLsb' 64 16 = 0 ∧ rawBytes (placeRaw bs 0) = bs ++ List.replicate (8 - bs.length) 0 := by
  have hlen : (bs ++ List.replicate (8 - bs.length) 0).length = 8 := by simp; omega
  have hpack := placeRaw_eq_pack bs 0 (by omega)
  rw [Nat.sub_zero] at hpack
  generalize bs ++ List.replicate (8 - bs.length) 0 = lanes at hpack hlen
  have hnum : (placeRaw bs 0).toNat = bytesNat lanes := by rw [hpack, pack_toNat (by omega)]
  constructor
  · have hlt := bytesNat_lt lanes
    rw [hlen, ← hnum] at hlt
    apply BitVec.eq_of_toNat_eq
    rw [BitVec.extractLsb'_toNat, Nat.shiftRight_eq_div_pow, Nat.div_eq_of_lt hlt]
    rfl
  · have hread := varintBytes_of_toNat hnum
    rwa [hlen, ← rawBytes_eq_varintBytes] at hread

/-- Settles O59: a well-formed line has the words of `lineWords`; the decoder's equation gives their fields back, and
the lanes' own lemmas the operand. -/
theorem assembledLinesReadBack : Obligations.AssembledLinesReadBack := by
  refine ⟨fun n bytes hn hlen => ?_, fun v hv => ?_, fun bytes hlen => ?_, fun n p hn hp => ?_, ?_, ?_, ?_, fun w => ?_⟩
  · obtain ⟨hzero, hlanes⟩ := placeRaw_readsBack (show bytes.length ≤ 8 by omega)
    exact ⟨_, _, assemble_of_wellFormed (Bool.and_eq_true_iff.2 ⟨decide_eq_true hn, decide_eq_true hlen⟩),
      decode_assembleWord 0 .command 0 _ _, hzero, hlanes⟩
  · exact ⟨_, assemble_of_wellFormed (decide_eq_true hv), decode_assembleWord 1 .command 0 _ _⟩
  · have hnum := bytesNat_lt bytes
    rw [← pack_toNat hlen] at hnum
    exact ⟨_, _, assemble_of_wellFormed (decide_eq_true hlen),
      decode_assembleWord 2 .command 0 _ _, varintBytes_pack hlen, hnum⟩
  · exact ⟨_, assemble_of_wellFormed (Bool.and_eq_true_iff.2 ⟨decide_eq_true hn, decide_eq_true hp⟩),
      decode_assembleWord 2 .command 0 _ _⟩
  · exact ⟨_, assemble_of_wellFormed rfl, decode_assembleWord 0 .results 0 0 0⟩
  · exact ⟨_, assemble_of_wellFormed rfl, decode_assembleWord 1 .results 0 0 0⟩
  · exact ⟨_, assemble_of_wellFormed rfl, decode_assembleWord 2 .results 0 0 0⟩
  · have hwf : (AsmLine.word w.toNat).wellFormed = true := decide_eq_true w.isLt
    rw [assemble_of_wellFormed hwf, lineWords, BitVec.ofNat_toNat, BitVec.setWidth_eq]

/-- Settles O58: the words of RTRIP are written with the same fields as those of the three lines. -/
theorem roundTripPseudoInstructionExpands : Obligations.RoundTripPseudoInstructionExpands := by
  intro rb hrb
  have hparse : (AsmLine.parse 8 rb).wellFormed = true := by simp [AsmLine.wellFormed, hrb, Config.rawLen]
  have hrtrip : (AsmLine.rtrip rb).wellFormed = true := decide_eq_true hrb
  exact ⟨_, _, _, assemble_of_wellFormed hparse, assemble_of_wellFormed rfl, assemble_of_wellFormed rfl,
    assemble_of_wellFormed hrtrip⟩

end Sys2Proof.Machine
end

section
/-! PROOFS. PARSE (40_parse.md R90 to R94): its outcome for each effective length, and the Value of its byte lanes, as a sum
and as bits 63:0 of its operand. -/

namespace Sys2Proof.Machine

/-! ## The operation -/

/-- PARSE with a ready operand ends as `parseOperand` says of it. -/
theorem exec_parse_ready {src : OperandSource} {len : Len} {data : Wide} {s : State} (h : OperandReady src s) :
    exec (.parse src len data) s
      = .next (finish (parseOperand ⟨effectiveLen src len s, effectiveData src data s⟩) s) :=
  congrArg Host.Outcome.next (runOperation_ready parseOperand h)

/-- Too few bytes; the data does not matter (R91). -/
theorem parseOperand_of_len_lt {len : Len} (h : len.toNat < 8) (data : Wide) :
    parseOperand ⟨len, data⟩ = .error .truncatedInput :=
  if_pos h

/-- Too many bytes; the data does not matter (R92). -/
theorem parseOperand_of_lt_len {len : Len} (h : 8 < len.toNat) (data : Wide) :
    parseOperand ⟨len, data⟩ = .error .illegalCommand :=
  (if_neg h.le.not_gt).trans (if_pos h)

/-- 8 bytes are a Value (R93). -/
theorem parseOperand_eight (data : Wide) : parseOperand ⟨8, data⟩ = .ok (valueResult (parseValue (rawBytes data))) :=
  rfl

/-! ## The Value of the byte lanes -/

/-- The number that a listed string of `n` bytes spells, as a sum over the places of its bytes. -/
theorem bytesNat_map_range (n : Nat) (f : Nat → Byte) :
    bytesNat ((List.range n).map f) = ∑ i ∈ Finset.range n, (f i).toNat * 2 ^ (8 * (n - 1 - i)) := by
  induction n generalizing f with
  | zero => rfl
  | succ n ih =>
    have hplace : ∀ i, n - 1 - i = n - (i + 1) := fun i => by omega
    rw [List.range_succ_eq_map, List.map_cons, List.map_map, bytesNat, ih, Finset.sum_range_succ', Nat.add_comm]
    simp only [hplace, Function.comp_apply, Nat.succ_eq_add_one, List.length_map, List.length_range, Nat.add_sub_cancel,
      Nat.sub_zero]

/-- There are 8 byte lanes (R60). -/
@[simp] theorem length_rawBytes (data : Wide) : (rawBytes data).length = 8 := rfl

/-- The Value of the byte lanes is their big-endian sum; no addition of the loop wraps (R93, R141). -/
theorem parseValue_rawBytes_toNat (data : Wide) : (parseValue (rawBytes data)).toNat = bigEndianSum data := by
  rw [parseValue_toNat (length_rawBytes data).le]
  exact bytesNat_map_range 8 (rawByte data)

/-- The Value of the byte lanes is bits 63:0 of the data, since they stand most significant first (R61, R93). -/
theorem parseValue_rawBytes (data : Wide) : parseValue (rawBytes data) = valueField data := by
  apply BitVec.eq_of_toNat_eq
  rw [parseValue_toNat (length_rawBytes data).le, rawBytes_eq_varintBytes, valueField, BitVec.extractLsb'_toNat,
    Nat.shiftRight_zero]
  exact bytesNat_lowBytes data 8

/-- A Value in 80 bits is read back whole (R62). -/
theorem setWidth_valueField {data : Wide} (h : data.toNat < 2 ^ 64) : (valueField data).setWidth 80 = data := by
  apply BitVec.eq_of_toNat_eq
  rw [BitVec.toNat_setWidth_of_le (by decide), valueField, BitVec.extractLsb'_toNat, Nat.shiftRight_zero,
    Nat.mod_eq_of_lt h]

/-! ## The statements -/

/-- Settles O19: the sum is the number of a 64-bit Value. -/
theorem parseGivesTheBigEndianSum : Obligations.ParseGivesTheBigEndianSum := by
  intro src len data s hready hlen
  rw [exec_parse_ready hready, hlen, parseOperand_eight, ← parseValue_rawBytes_toNat, BitVec.ofNat_toNat]
  exact ⟨rfl, BitVec.isLt _⟩

/-- Settles O20: the Value of the byte lanes is `valueField`. -/
theorem parseIsWiring : Obligations.ParseIsWiring := by
  intro src len data s hready hlen
  rw [exec_parse_ready hready, hlen, parseOperand_eight, parseValue_rawBytes]
  rfl

/-- Settles O22: PARSE writes bits 63:0 of `RES_DATA`, which are all of it, beside the status and length that were there. -/
theorem parseOfAForwardedValueIsIdentity : Obligations.ParseOfAForwardedValueIsIdentity := by
  intro len data s hok hlen hdata
  calc exec (.parse .results len data) s
      = .next (s.after 1 8 ((valueField s.resData).setWidth 80)) := parseIsWiring .results len data s (.inr hok) hlen
    _ = .next (s.after s.resStatus s.resLen s.resData) := by rw [setWidth_valueField hdata, hok, hlen]
    _ = .next s := rfl

/-- Settles O17: `parseOperand` tests the length before it looks at a lane. -/
theorem parseOfTooFewBytesIsTruncated : Obligations.ParseOfTooFewBytesIsTruncated := by
  intro src len data s hready hlen
  rw [exec_parse_ready hready, parseOperand_of_len_lt hlen]
  rfl

/-- Settles O18: the second test of `parseOperand` is on the length too. -/
theorem parseOfTooManyBytesIsIllegal : Obligations.ParseOfTooManyBytesIsIllegal := by
  intro src len data s hready hlen
  rw [exec_parse_ready hready, parseOperand_of_lt_len hlen]
  rfl

end Sys2Proof.Machine
end

section
/-! PROOFS. ENCODE (41_encode.md R100 to R110): its working list, the length and the bytes of its VarintBuffer in numbers,
and the packed form it answers with. -/

namespace Sys2Proof.Machine

/-! ## The working list -/

/-- Nothing remains above bit `n` exactly when the Value has no more than `n` bits. -/
theorem shiftRight_eq_zero_iff (v : Value) (n : Nat) : v >>> n = 0 ↔ v.toNat < 2 ^ n := by
  rw [← BitVec.toNat_inj, BitVec.toNat_ushiftRight, Nat.shiftRight_eq_div_pow]
  simp [Nat.div_eq_zero_iff]

/-- What pass `k` appends is the chunk `v[7k+6:7k]`, with the continuation bit when bits remain after the shift (R103). -/
theorem chunkByte_shiftRight (v : Value) (k : Nat) :
    chunkByte (v >>> (7 * k)) =
      (v.extractLsb' (7 * k) 7).setWidth 8 ||| if v >>> (7 * (k + 1)) = 0 then 0x00 else 0x80 := by
  have hchunk : ((v >>> (7 * k)) &&& 0x7F).setWidth 8 = (v.extractLsb' (7 * k) 7).setWidth 8 := by
    apply BitVec.eq_of_toNat_eq
    simp only [BitVec.toNat_setWidth, BitVec.toNat_and, BitVec.toNat_ushiftRight, BitVec.extractLsb'_toNat]
    exact congrArg (· % 2 ^ 8) (Nat.and_two_pow_sub_one_eq_mod _ 7)
  have hnext : (v >>> (7 * k)) >>> Config.chunkW = v >>> (7 * (k + 1)) := (BitVec.shiftRight_add v (7 * k) 7).symm
  rw [chunkByte, hchunk, hnext]
  by_cases h : v >>> (7 * (k + 1)) = 0
  · rw [if_neg (not_not.2 h), if_pos h]
    exact BitVec.or_zero.symm
  · rw [if_pos h, if_neg h]
    rfl

/-- A pass over a `rem` that is not 0 appends no zero byte: a zero chunk has its continuation bit (R103, R110). -/
theorem chunkByte_ne_zero {rem : Value} (h : rem ≠ 0) : chunkByte rem ≠ 0 := by
  intro h0
  have hrem : rem.toNat ≠ 0 := fun e => h (BitVec.eq_of_toNat_eq e)
  have hbyte := chunkByte_toNat rem
  rw [h0, show (0 : Byte).toNat = 0 from rfl] at hbyte
  split at hbyte <;> omega

/-- No byte of a working list is 0 (R110). -/
theorem chunkLoop_getElem?_ne_zero (passes : Nat) (rem : Value) (k : Nat) : (chunkLoop passes rem)[k]? ≠ some 0 := by
  intro h
  obtain ⟨hbyte, hrem⟩ := chunkLoop_getElem? passes rem k 0 h
  exact chunkByte_ne_zero hrem hbyte.symm

/-- Settles O25: the loop's bound covers every Value, so it has made `n` passes or fewer exactly when nothing remains
above bit `7n`. -/
theorem workingListFollowsChunkingRule : Obligations.WorkingListFollowsChunkingRule := by
  intro v
  have hlen : ∀ n, (chunkLoop 10 v).length ≤ n ↔ v >>> (7 * n) = 0 := fun n =>
    (chunkLoop_length_le 10 v (value_lt v) n).trans (shiftRight_eq_zero_iff v (7 * n)).symm
  refine ⟨fun k b h => ?_, (hlen _).1 le_rfl, fun k hk h => ?_, ?_⟩
  · obtain ⟨hbyte, -⟩ := chunkLoop_getElem? 10 v k b h
    rw [hbyte, chunkByte_shiftRight]
  · exact absurd ((hlen k).2 h) (by omega)
  · rw [List.getLast?_eq_getElem?]
    exact chunkLoop_getElem?_ne_zero 10 v _

/-- Settles O31: the packed form is the number its bytes spell, and for `v > 0` its bytes are those of the working list. -/
theorem packedFormHasNoZeroByte : Obligations.PackedFormHasNoZeroByte := by
  intro v
  have hle := encodeValue_length_le_ten v
  constructor
  · rw [pack_toNat hle]
    exact bytesNat_lt _
  · intro hv k hk h0
    have hbyte := getElem?_eq_extract_pack hle hk
    rw [h0, encodeValue_of_ne hv] at hbyte
    exact chunkLoop_getElem?_ne_zero _ _ _ hbyte

/-! ## The length -/

/-- R146's length of 0. -/
theorem varintLength_zero : varintLength 0 = 1 := rfl

/-- R146's length of a Value that has a highest set bit. -/
theorem varintLength_of_ne {v : Value} (h : v ≠ 0) : varintLength v = (Nat.log2 v.toNat + 1 + 6) / 7 := by
  rw [varintLength, if_neg h, bitLength, if_neg h]

/-- R146's length is at most `n` exactly when the Value has no more than `7n` bits. -/
theorem varintLength_le_iff (v : Value) {n : Nat} (hn : 1 ≤ n) : varintLength v ≤ n ↔ v.toNat < 2 ^ (7 * n) := by
  by_cases hv : v = 0
  · rw [hv, varintLength_zero]
    simp [hn]
  · have hnat : v.toNat ≠ 0 := fun e => hv (BitVec.eq_of_toNat_eq e)
    rw [varintLength_of_ne hv, ← Nat.log2_lt hnat]
    omega

/-- R146's length is never 0. -/
theorem varintLength_pos (v : Value) : 1 ≤ varintLength v := by
  by_cases hv : v = 0
  · rw [hv, varintLength_zero]
  · rw [varintLength_of_ne hv]
    omega

/-- A VarintBuffer has the length that R146 gives. -/
theorem encodeValue_length (v : Value) : (encodeValue v).length = varintLength v := by
  have hpos := encodeValue_length_pos v
  have hpos' := varintLength_pos v
  apply le_antisymm
  · rw [encodeValue_length_le v hpos', ← varintLength_le_iff v hpos']
  · rw [varintLength_le_iff v hpos, ← encodeValue_length_le v hpos]

/-- R130's loop too does not depend on its bound once that covers the packed input. -/
theorem extractUntilZero_stable (passes : Nat) (rem : Wide) (h : rem.toNat < 2 ^ (8 * passes)) (k : Nat) :
    extractUntilZero (passes + k) rem = extractUntilZero passes rem := by
  have hzero : ∀ n, extractUntilZero n 0 = [] := fun n => by cases n <;> rfl
  induction passes generalizing rem with
  | zero =>
    obtain rfl : rem = 0 := BitVec.eq_of_toNat_eq (by simpa using h)
    rw [hzero, hzero]
  | succ n ih =>
    have hshift : (rem >>> Config.byteW).toNat < 2 ^ (8 * n) := by
      rw [BitVec.toNat_ushiftRight, Nat.shiftRight_eq_div_pow]
      exact Nat.div_lt_of_lt_mul (by rwa [← Nat.pow_add, Config.byteW, Nat.add_comm])
    rw [Nat.succ_add_eq_add_succ, Nat.add_succ, extractUntilZero, extractUntilZero, ih _ hshift]

/-- Settles O32: 10 passes cover the 64 bits of a Value and the 80 bits of a packed form. -/
theorem loopBoundsAreNeverReached : Obligations.LoopBoundsAreNeverReached := by
  refine fun k => ⟨fun v => ⟨chunkLoop_stable 10 v (value_lt v) k, fun hv => ?_⟩,
    fun p => extractUntilZero_stable 10 p p.isLt k, extractChunks_length k⟩
  rw [← encodeValue_of_ne hv, encodeValue_length]

/-! ## The bytes -/

/-- A VarintBuffer's byte as a number fits a byte (R66). -/
theorem varintByteNat_lt (v : Value) (i : Nat) : varintByteNat v i < 2 ^ 8 := by
  rw [varintByteNat]
  split <;> omega

/-- Byte `i` of a VarintBuffer is the number that R66 gives for it. -/
theorem encodeValue_getElem?_toNat {v : Value} {i : Nat} {b : Byte} (h : (encodeValue v)[i]? = some b) :
    b.toNat = varintByteNat v i := by
  by_cases hv : v = 0
  · rw [hv, encodeValue_zero] at h
    obtain ⟨hi, rfl⟩ := List.getElem?_eq_some_iff.1 h
    obtain rfl : i = 0 := by simpa using hi
    rw [hv]; rfl
  · rw [encodeValue_of_ne hv] at h
    obtain ⟨rfl, -⟩ := chunkLoop_getElem? _ _ _ _ h
    have hlast : v.toNat / 2 ^ (7 * i) / 128 = 0 ↔ ¬ i + 1 < varintLength v := by
      rw [not_lt, varintLength_le_iff v (by omega), Nat.div_div_eq_div_mul, Nat.div_eq_zero_iff_lt (by positivity),
        Nat.mul_add, Nat.pow_add]
    rw [chunkByte_toNat, BitVec.toNat_ushiftRight, Nat.shiftRight_eq_div_pow, varintByteNat]
    simp only [hlast, ite_not]
    rfl

/-- A VarintBuffer, listed byte by byte as R66 gives it. -/
theorem encodeValue_eq_map (v : Value) :
    encodeValue v = (List.range (varintLength v)).map fun i => BitVec.ofNat 8 (varintByteNat v i) := by
  refine List.ext_getElem (by simp [encodeValue_length]) fun i hi _ => ?_
  rw [List.getElem_map, List.getElem_range, ← encodeValue_getElem?_toNat (List.getElem?_eq_getElem hi),
    BitVec.ofNat_toNat, BitVec.setWidth_eq]

/-- The bytes of a VarintBuffer spell the sum of R67. -/
theorem bytesNat_encodeValue (v : Value) : bytesNat (encodeValue v) = packedNat v := by
  rw [encodeValue_eq_map, bytesNat_map_range, packedNat]
  simp only [BitVec.toNat_ofNat, Nat.mod_eq_of_lt (varintByteNat_lt v _)]

/-- The packed form of a VarintBuffer is the sum of R67, in 80 bits. -/
theorem pack_encodeValue (v : Value) : pack (encodeValue v) = BitVec.ofNat 80 (packedNat v) := by
  rw [← bytesNat_encodeValue, ← pack_toNat (encodeValue_length_le_ten v), BitVec.ofNat_toNat, BitVec.setWidth_eq]

/-- Settles O29: a tenth byte is needed exactly from `2^(7*9)` on; it is the chunk of bit 63 alone, the last. -/
theorem encodeNeverExceedsTenBytes : Obligations.EncodeNeverExceedsTenBytes := by
  intro v
  have hle := encodeValue_length_le_ten v
  have hnine : (encodeValue v).length ≤ 9 ↔ v.toNat < 2 ^ 63 := encodeValue_length_le v (by decide)
  refine ⟨hle, by omega, fun hv => ?_, ?_⟩
  · have hten : 9 < (encodeValue v).length := by omega
    have hbyte := List.getElem?_eq_getElem hten
    rw [hbyte]
    refine congrArg some (BitVec.eq_of_toNat_eq ?_)
    have hlast : ¬ 9 + 1 < varintLength v := by rw [← encodeValue_length]; omega
    have hlt := v.isLt
    rw [encodeValue_getElem?_toNat hbyte, varintByteNat, if_neg hlast]
    change v.toNat / 2 ^ 63 % 2 ^ 7 + 0 = 1
    omega
  · rw [foldl_eq_bytesNat, pack_toNat hle, Nat.zero_mul, Nat.zero_add]

/-! ## The results -/

/-- The (length, packed form) of a VarintBuffer determines it: each of its bytes is in the packed form (R67). -/
theorem varintResult_inj {vb vb' : List Byte} (hvb : vb.length ≤ 10) (hvb' : vb'.length ≤ 10)
    (h : varintResult vb = varintResult vb') : vb = vb' := by
  obtain ⟨hlen, hdata⟩ := Result.mk.inj h
  have hlength : vb.length = vb'.length := by
    have hmod := congrArg BitVec.toNat hlen
    rwa [BitVec.toNat_ofNat, BitVec.toNat_ofNat, Nat.mod_eq_of_lt (by omega), Nat.mod_eq_of_lt (by omega)] at hmod
  rw [← varintBytes_pack hvb, ← varintBytes_pack hvb', hlength, hdata]

/-- A VarintBuffer determines its Value, which its chunks carry (R66, R108). -/
theorem encodeValue_injective : Function.Injective encodeValue := fun v w h =>
  BitVec.eq_of_toNat_eq (by rw [← chunksNat_encodeValue, h, chunksNat_encodeValue])

/-- Settles O30: the result determines the VarintBuffer, and that its Value. -/
theorem differentValuesEncodeDifferently : Obligations.DifferentValuesEncodeDifferently := fun v w =>
  ⟨fun h => encodeValue_injective (varintResult_inj (encodeValue_length_le_ten v) (encodeValue_length_le_ten w) h),
    congrArg fun v => varintResult (encodeValue v)⟩

/-- ENCODE with a ready operand ends `OK`, with the VarintBuffer of the operand's Value (R107). -/
theorem exec_encode_ready {src : OperandSource} {len : Len} {data : Wide} {s : State} (h : OperandReady src s) :
    exec (.encode src len data) s
      = .next (complete (varintResult (encodeValue (valueField (effectiveData src data s)))) s) :=
  congrArg Host.Outcome.next (runOperation_ready encodeOperand h)

/-- Settles O24: the VarintBuffer that ENCODE answers with has R146's length and spells R67's sum. -/
theorem encodeGivesLengthAndPackedForm : Obligations.EncodeGivesLengthAndPackedForm := by
  intro src len data s v hready hv
  have hexec := exec_encode_ready (len := len) (data := data) hready
  rw [show valueField (effectiveData src data s) = v from hv, varintResult, encodeValue_length, pack_encodeValue]
    at hexec
  refine ⟨hexec, ?_, ?_⟩
  · rw [← encodeValue_length]
    exact encodeValue_length_le_ten v
  · rw [← bytesNat_encodeValue, ← encodeValue_length]
    exact bytesNat_lt _

/-- Settles O23: the working list of 0 is empty, and becomes `[0x00]`, of length 1 and packed form 0. -/
theorem encodeOfZeroIsOneZeroByte : Obligations.EncodeOfZeroIsOneZeroByte := by
  refine ⟨encodeValue_zero, fun src len data s hready hzero => ?_⟩
  rw [exec_encode_ready hready, show valueField (effectiveData src data s) = 0 from hzero, encodeValue_zero]
  rfl

end Sys2Proof.Machine
end

section
/-! PROOFS. DECODE (42_decode.md R120 to R131): its outcome for each length, the size of the sum of its chunks,
the other two listings of the same function, and its answer to the buffers that ENCODE makes. -/

namespace Sys2Proof.Machine

/-! ## The operation -/

/-- DECODE with a ready operand ends as `decodeOperand` says of it. -/
theorem exec_decode_ready {src : OperandSource} {len : Len} {data : Wide} {s : State} (h : OperandReady src s) :
    exec (.decode src len data) s
      = .next (finish (decodeOperand ⟨effectiveLen src len s, effectiveData src data s⟩) s) :=
  congrArg Host.Outcome.next (runOperation_ready decodeOperand h)

/-- The empty buffer; the data does not matter (R122). -/
theorem decodeOperand_of_len_lt {len : Len} (h : len.toNat < 1) (data : Wide) :
    decodeOperand ⟨len, data⟩ = .error .illegalCommand :=
  if_pos h

/-- More than 10 bytes; the data does not matter (R123). -/
theorem decodeOperand_of_lt_len {len : Len} (h : 10 < len.toNat) (data : Wide) :
    decodeOperand ⟨len, data⟩ = .error .oversizedDecodeInput :=
  (if_neg (show ¬ len.toNat < 1 by omega)).trans (if_pos h)

/-- For 1 to 10 bytes the sum of the chunks decides (R125, R127, R128). -/
theorem decodeOperand_of_len_le {len : Len} (h1 : 1 ≤ len.toNat) (h10 : len.toNat ≤ 10) (data : Wide) :
    decodeOperand ⟨len, data⟩ =
      if 2 ^ 64 ≤ chunkSum len.toNat data then .error .oversizedDecodeInput
      else .ok (valueResult (BitVec.ofNat 64 (chunkSum len.toNat data))) := by
  rw [← decodeNat_eq_chunkSum h10]
  exact (if_neg h1.not_gt).trans (if_neg h10.not_gt)

/-- A number that fits a Value, as a result (R62, R128). -/
theorem valueResult_ofNat {m : Nat} (h : m < 2 ^ 64) : valueResult (BitVec.ofNat 64 m) = ⟨8, BitVec.ofNat 80 m⟩ :=
  congrArg (Result.mk 8) (BitVec.setWidth_ofNat_of_le_of_lt (by decide) h)

/-- Settles O33: `decodeOperand` tests the length before it looks at a chunk. -/
theorem decodeOfNoByteIsIllegal : Obligations.DecodeOfNoByteIsIllegal := by
  intro src len data s hready hlen
  rw [exec_decode_ready hready, decodeOperand_of_len_lt (by rw [hlen]; decide)]
  rfl

/-- Settles O34: the second test of `decodeOperand` is on the length too. -/
theorem decodeOfMoreThanTenBytesIsOversized : Obligations.DecodeOfMoreThanTenBytesIsOversized := by
  intro src len data s hready hlen
  rw [exec_decode_ready hready, decodeOperand_of_lt_len hlen]
  rfl

/-- Settles O35: a sum below `2^64` passes the test of R127 and is written whole. -/
theorem decodeGivesTheChunkSum : Obligations.DecodeGivesTheChunkSum := by
  rintro src len data s n hready rfl h1 h10 hfits
  rw [exec_decode_ready hready, decodeOperand_of_len_le h1 h10, if_neg hfits.not_ge, valueResult_ofNat hfits]
  rfl

/-! ## The sum of the chunks -/

/-- The chunks of `n` bytes have `7n` bits (R121). -/
theorem chunkSum_lt (n : Nat) (data : Wide) : chunkSum n data < 2 ^ (7 * n) := by
  have hlt := chunksNat_lt (varintBytes n data)
  rwa [← chunkSum_eq_chunksNat, varintBytes, List.length_map, List.length_range] at hlt

/-- The last byte of the sequence, byte 0 of the packed form, has the highest weight (R67, R125). -/
theorem chunkSum_succ (n : Nat) (data : Wide) :
    chunkSum (n + 1) data = chunkSum n (data >>> Config.byteW) + (data.extractLsb' 0 7).toNat * 2 ^ (7 * n) := by
  rw [← reassembleChunks_extractChunks, reassembleChunks_extractChunks_succ, reassembleChunks_extractChunks,
    BitVec.extractLsb'_toNat, Nat.shiftRight_zero]

/-- The sum needs more than 64 bits only with a tenth chunk, whose weight is `2^63`, of 2 or more (R127). -/
theorem le_chunkSum_iff {n : Nat} (h10 : n ≤ 10) (data : Wide) :
    2 ^ 64 ≤ chunkSum n data ↔ n = 10 ∧ 2 ≤ (data.extractLsb' 0 7).toNat := by
  obtain rfl | hn := Nat.eq_or_lt_of_le h10
  · have hrest := chunkSum_lt 9 (data >>> Config.byteW)
    rw [chunkSum_succ]
    omega
  · have hlt := chunkSum_lt n data
    have hle : 2 ^ (7 * n) ≤ 2 ^ 63 := Nat.pow_le_pow_right (by decide) (by omega)
    omega

/-- Settles O36: the test of R127 is on the sum of the chunks, and the tenth chunk alone can make that too large. -/
theorem decodeOfAValueThatDoesNotFitIsOversized : Obligations.DecodeOfAValueThatDoesNotFitIsOversized := by
  rintro src len data s n hready rfl h1 h10
  refine ⟨fun hbig => ?_, le_chunkSum_iff h10 _⟩
  rw [exec_decode_ready hready, decodeOperand_of_len_le h1 h10, if_pos hbig]
  rfl

/-! ## What DECODE reads -/

/-- The sum sees the data only through the chunks of its `n` bytes (R126). -/
theorem chunkSum_congr {n : Nat} {data data' : Wide}
    (h : ∀ k < n, data.extractLsb' (8 * k) 7 = data'.extractLsb' (8 * k) 7) : chunkSum n data = chunkSum n data' := by
  refine Finset.sum_congr rfl fun i hi => ?_
  have hi := Finset.mem_range.1 hi
  rw [h (n - 1 - i) (by omega)]

/-- DECODE sees the data only through the chunks of its bytes, whatever their number (R126). -/
theorem decodeOperand_congr_chunks {len : Len} {data data' : Wide}
    (h : ∀ k < len.toNat, data.extractLsb' (8 * k) 7 = data'.extractLsb' (8 * k) 7) :
    decodeOperand ⟨len, data⟩ = decodeOperand ⟨len, data'⟩ := by
  by_cases h1 : len.toNat < 1
  · rw [decodeOperand_of_len_lt h1, decodeOperand_of_len_lt h1]
  · by_cases h10 : 10 < len.toNat
    · rw [decodeOperand_of_lt_len h10, decodeOperand_of_lt_len h10]
    · rw [decodeOperand_of_len_le (not_lt.1 h1) (not_lt.1 h10), decodeOperand_of_len_le (not_lt.1 h1) (not_lt.1 h10),
        chunkSum_congr h]

/-- The end of a command overwrites `RES_DATA` (R47). -/
theorem finish_setResData (o : Except CodecError Result) (s : State) (d : Wide) :
    finish o { s with resData := d } = finish o s := by
  cases o <;> rfl

/-- Settles O37: `RES_DATA` counts only as the operand, of which DECODE sees the chunks. -/
theorem decodeReadsOnlyTheChunks : Obligations.DecodeReadsOnlyTheChunks := by
  intro src len data data' d' s h
  refine congrArg Host.Outcome.next ?_
  by_cases hready : OperandReady src s
  · have hready' : OperandReady src { s with resData := d' } := hready
    rw [runOperation_ready _ hready, runOperation_ready _ hready', finish_setResData, decodeOperand_congr_chunks h]
    rfl
  · have hready' : ¬ OperandReady src { s with resData := d' } := hready
    rw [runOperation_notReady _ hready, runOperation_notReady _ hready']
    rfl

/-! ## The other two listings -/

/-- R129's second listing adds the chunks of the bytes it visits at rising weights. -/
theorem decodeByteSequence_eq (bs : List Byte) (i result : Nat) :
    decodeByteSequence bs i result = result + 2 ^ (7 * i) * chunksNat bs := by
  induction bs generalizing i result with
  | nil => rfl
  | cons b rest ih =>
    have hchunk : (b &&& 0x7F).toNat = b.toNat % 128 := Nat.and_two_pow_sub_one_eq_mod b.toNat 7
    rw [decodeByteSequence, ih, hchunk, Nat.shiftLeft_eq, chunksNat, Nat.mul_add 7, Nat.pow_add]
    ring

/-- Settles O38: both listings compute the number that the chunks of the bytes spell. -/
theorem decodeEqualsItsByteSequenceView : Obligations.DecodeEqualsItsByteSequenceView := by
  intro n data hn
  rw [decodeNat_eq_chunkSum hn, chunkSum_eq_chunksNat, decodeByteSequence_eq]
  simp

/-- When nothing remains from pass `n` on and not before, stopping on zero is stopping after `n` passes (R130). -/
theorem extractUntilZero_eq_extractChunks {n passes : Nat} (hn : n ≤ passes) {rem : Wide}
    (h : ∀ k, rem >>> (8 * k) = 0 ↔ n ≤ k) : extractUntilZero passes rem = extractChunks n rem := by
  induction passes generalizing n rem with
  | zero => rw [Nat.le_zero.1 hn]; rfl
  | succ p ih =>
    have hzero : rem = 0 ↔ n = 0 := by simpa using h 0
    cases n with
    | zero => rw [extractUntilZero, if_pos (hzero.2 rfl)]; rfl
    | succ n =>
      have hnext : ∀ k, (rem >>> Config.byteW) >>> (8 * k) = 0 ↔ n ≤ k := fun k => by
        rw [← BitVec.shiftRight_add, show Config.byteW + 8 * k = 8 * (k + 1) by rw [Config.byteW]; ring, h]
        omega
      have hrem : rem ≠ 0 := fun hz => Nat.succ_ne_zero n (hzero.1 hz)
      rw [extractUntilZero, if_neg hrem, ih (by omega) hnext, extractChunks]

/-- Of the packed form of a Value above 0, as many bytes remain to be shifted out as the buffer has: its first byte, the
most significant, is not 0 (R110). -/
theorem pack_encodeValue_shiftRight_eq_zero_iff {v : Value} (hv : v ≠ 0) (k : Nat) :
    pack (encodeValue v) >>> (8 * k) = 0 ↔ (encodeValue v).length ≤ k := by
  obtain ⟨hlt, hbyte⟩ := packedFormHasNoZeroByte v
  constructor
  · intro hz
    by_contra hk
    refine hbyte hv k (by omega) ?_
    rw [← BitVec.setWidth_ushiftRight_eq_extractLsb, hz]
    rfl
  · intro hk
    apply BitVec.eq_of_toNat_eq
    rw [BitVec.toNat_ushiftRight, Nat.shiftRight_eq_div_pow]
    exact Nat.div_eq_of_lt (hlt.trans_le (Nat.pow_le_pow_right (by decide) (by omega)))

/-- A packed form has nothing above its bytes (R67). -/
theorem packedForm_pack {vb : List Byte} (h : vb.length ≤ 10) : packedForm vb.length (pack vb) = pack vb := by
  rw [← pack_varintBytes h, varintBytes_pack h]

/-- Settles O39: the packed form of `v > 0` runs out exactly after its `n` bytes; that of 0 has one zero chunk,
which adds nothing. `DECODE 00 96` begins with a zero byte, which stopping on zero does not count. -/
theorem stopOnZeroAgreesOnEncodedBuffers : Obligations.StopOnZeroAgreesOnEncodedBuffers := by
  refine ⟨fun v => ?_, by decide, by decide⟩
  by_cases hv : v = 0
  · rw [hv, encodeValue_zero]
    rfl
  · have hle := encodeValue_length_le_ten v
    rw [decodeNatUntilZero, decodeNat, packedForm_pack hle]
    exact congrArg reassembleChunks
      (extractUntilZero_eq_extractChunks hle (pack_encodeValue_shiftRight_eq_zero_iff hv))

/-! ## The round trip -/

/-- The chunks of a packed VarintBuffer are those of its bytes (R125, R129). -/
theorem chunkSum_pack {vb : List Byte} (h : vb.length ≤ 10) : chunkSum vb.length (pack vb) = chunksNat vb := by
  rw [chunkSum_eq_chunksNat, varintBytes_pack h]

/-- The chunks of the packed form of a Value add up to it (R66, R131). -/
theorem chunkSum_pack_encodeValue (v : Value) : chunkSum (encodeValue v).length (pack (encodeValue v)) = v.toNat := by
  rw [chunkSum_pack (encodeValue_length_le_ten v), chunksNat_encodeValue]

/-- The length register holds the length of a VarintBuffer whole (R23). -/
theorem varintResult_len_toNat {vb : List Byte} (h : vb.length ≤ 10) : (varintResult vb).len.toNat = vb.length := by
  rw [varintResult, BitVec.toNat_ofNat]
  exact Nat.mod_eq_of_lt (by omega)

/-- DECODE RES on the VarintBuffer of a Value ends `OK` with the Value (R131). -/
theorem exec_decode_results_complete_varintResult (len : Len) (data : Wide) (v : Value) (s : State) :
    exec (.decode .results len data) (complete (varintResult (encodeValue v)) s)
      = .next (s.after 1 8 (v.setWidth 80)) := by
  have hle := encodeValue_length_le_ten v
  have hsum : chunkSum (encodeValue v).length
      (effectiveData .results data (complete (varintResult (encodeValue v)) s)) = v.toNat := chunkSum_pack_encodeValue v
  rw [decodeGivesTheChunkSum .results len data (complete (varintResult (encodeValue v)) s) (encodeValue v).length
    (.inr rfl) (varintResult_len_toNat hle) (encodeValue_length_pos v) hle (hsum.trans_lt v.isLt), hsum,
    BitVec.ofNat_toNat]
  rfl

/-- Settles O45: ENCODE leaves the VarintBuffer of its Value in the registers, from where DECODE takes it. -/
theorem decodeAfterEncodeRestoresTheValue : Obligations.DecodeAfterEncodeRestoresTheValue := by
  intro src len len' data data' s hready
  exact ⟨_, exec_encode_ready hready, rfl, exec_decode_results_complete_varintResult len' data' _ s⟩

end Sys2Proof.Machine
end

section
/-! PROOFS. The laws of the arithmetic (43_arithmetic_and_laws.md R141 to R146): no addition loses a bit or meets a set bit,
PARSE is a bijection, and the length of an ENCODE result. -/

namespace Sys2Proof.Machine

/-! ## The accumulators -/

/-- R125's accumulator has, after each chunk, no bit above the chunks it has added. -/
theorem reassemble_lt (cs : List Chunk) (pos result : Nat) (h : result < 2 ^ (7 * pos)) :
    reassemble cs pos result < 2 ^ (7 * (pos + cs.length)) := by
  induction cs generalizing pos result with
  | nil => exact h
  | cons c rest ih =>
    have hc : c.toNat * 2 ^ (7 * pos) ≤ 127 * 2 ^ (7 * pos) := Nat.mul_le_mul_right _ (Nat.le_of_lt_succ c.isLt)
    have hnext : result + (c.toNat <<< (pos * Config.chunkW)) < 2 ^ (7 * (pos + 1)) := by
      rw [Nat.shiftLeft_eq, Config.chunkW, Nat.mul_comm pos 7, Nat.mul_add, Nat.pow_add]
      omega
    have hbound := ih (pos + 1) _ hnext
    rwa [Nat.add_assoc, Nat.add_comm 1] at hbound

/-- A number below bit `k` shares no bit with one shifted left by `k`. -/
theorem and_shiftLeft_eq_zero {x k : Nat} (h : x < 2 ^ k) (y : Nat) : x &&& (y <<< k) = 0 := by
  refine Nat.eq_of_testBit_eq fun i => ?_
  rw [Nat.testBit_and, Nat.testBit_shiftLeft, Nat.zero_testBit]
  by_cases hi : k ≤ i
  · rw [Nat.testBit_lt_two_pow (h.trans_le (Nat.pow_le_pow_right (by decide) hi)), Bool.false_and]
  · rw [decide_eq_false hi, Bool.false_and, Bool.and_false]

/-- The same in `w` bits. -/
theorem bitVec_and_shiftLeft_eq_zero {w k : Nat} {x : BitVec w} (h : x.toNat < 2 ^ k) (y : BitVec w) :
    x &&& (y <<< k) = 0#w := by
  apply BitVec.eq_of_toNat_eq
  rw [BitVec.toNat_and, BitVec.toNat_shiftLeft, ← Nat.mod_eq_of_lt x.isLt, ← Nat.and_mod_two_pow,
    and_shiftLeft_eq_zero h]
  rfl

/-- Settles O41: before each addition the accumulator is the number of what it has added, which ends below the bit where
the next term begins. -/
theorem addedTermsShareNoBit : Obligations.AddedTermsShareNoBit := by
  refine ⟨fun before b hlen => bitVec_and_shiftLeft_eq_zero ?_ _,
    fun after b hlen => bitVec_and_shiftLeft_eq_zero ?_ _, fun before c => and_shiftLeft_eq_zero ?_ _⟩
  · have hlt := bytesNat_lt before.reverse
    rw [List.length_reverse, Nat.mul_comm] at hlt
    rw [accumulateBytes_toNat before 0 0 (by omega) (by decide)]
    simpa using hlt
  · rw [pack_toNat hlen.le]
    exact bytesNat_lt after
  · have hlt := reassemble_lt before 0 0 (by decide)
    rwa [Nat.zero_add, Nat.mul_comm] at hlt

/-- Settles O40: each accumulator holds the number that what it was given spells. -/
theorem noOperationWrapsAround : Obligations.NoOperationWrapsAround := by
  refine ⟨fun n data hn => ?_, fun vb hvb => ?_, fun rb hrb => ?_⟩
  · rw [decodeNat_eq_chunkSum hn]
    exact (chunkSum_lt n data).trans_le (Nat.pow_le_pow_right (by decide) (by omega))
  · rw [pack_toNat hvb, foldl_eq_bytesNat, Nat.zero_mul, Nat.zero_add]
  · rw [parseValue_toNat hrb, foldl_eq_bytesNat, Nat.zero_mul, Nat.zero_add]

/-! ## PARSE is a bijection -/

/-- Settles O21: the bytes of a Value spell its number, and the number that 8 bytes spell has them as its digits. -/
theorem parseIsABijection : Obligations.ParseIsABijection := by
  refine ⟨fun v => ?_, fun rb hrb => ?_⟩
  · apply BitVec.eq_of_toNat_eq
    rw [parseValue_toNat (by simp)]
    exact (bytesNat_lowBytes v 8).trans (Nat.mod_eq_of_lt v.isLt)
  · have hnum : ((parseValue rb).setWidth 80).toNat = bytesNat rb := by
      rw [BitVec.toNat_setWidth_of_le (by decide), parseValue_toNat hrb.le]
    have hbytes := varintBytes_of_toNat hnum
    rw [hrb] at hbytes
    refine Eq.trans (List.map_congr_left fun i _ => ?_) hbytes
    exact (BitVec.extractLsb'_setWidth_of_le (by omega)).symm

/-! ## The length of an ENCODE result -/

/-- Settles O28: `k` bytes hold `7k` bits, and from 10 bytes on that is every Value. -/
theorem encodeLengthFormulaAndThresholds : Obligations.EncodeLengthFormulaAndThresholds := by
  refine fun v => ⟨encodeValue_length v, fun k hk => ?_⟩
  have hten : 10 ≤ k → v.toNat < 2 ^ (7 * k) := fun h =>
    (value_lt v).trans_le (Nat.pow_le_pow_right (by decide) (by omega))
  rw [encodeValue_length_le v hk, or_iff_left_of_imp hten]

end Sys2Proof.Machine
end

section
/-! PROOFS. DECODE is not injective (43_arithmetic_and_laws.md R148, 30_encoding.md R70): which buffers an encoding of their
value gives back, and one that it does not. -/

namespace Sys2Proof.Machine

/-! ## Canonical buffers -/

/-- The framing of R65: bit 7 is set on every byte but the last. -/
def Framed (vb : List Byte) : Prop := ∀ i b, vb[i]? = some b → b.getLsbD 7 = decide (i + 1 < vb.length)

/-- What follows the first byte of a framed buffer is framed. -/
theorem Framed.tail {b : Byte} {rest : List Byte} (h : Framed (b :: rest)) : Framed rest := fun i c hc => by
  rw [h (i + 1) c hc, List.length_cons, decide_eq_decide]
  omega

/-- The first byte of a framed buffer is its chunk, and 128 when a byte follows. -/
theorem Framed.head_toNat {b : Byte} {rest : List Byte} (h : Framed (b :: rest)) :
    b.toNat = b.toNat % 128 + if rest = [] then 0 else 128 := by
  have hlt := b.isLt
  have hbit : decide (2 ^ 7 ≤ b.toNat) = decide (0 + 1 < (b :: rest).length) := b.msb_eq_decide.symm.trans (h 0 b rfl)
  rw [decide_eq_decide, List.length_cons] at hbit
  cases rest with
  | nil =>
    rw [if_pos rfl]
    simp only [List.length_nil] at hbit
    omega
  | cons c rest =>
    rw [if_neg (List.cons_ne_nil c rest)]
    simp only [List.length_cons] at hbit
    omega

/-- A last byte that is not 0 stays the last byte when the first is taken off. -/
theorem getLast?_tail_ne_zero {b : Byte} {rest : List Byte} (h : (b :: rest).getLast? ≠ some 0) :
    rest.getLast? ≠ some 0 := fun h0 => h (by rw [List.getLast?_cons, h0]; rfl)

/-- The chunks of a framed buffer whose last byte is not 0 spell 0 only when there are none. -/
theorem chunksNat_eq_zero_iff {vb : List Byte} (hframed : Framed vb) (hlast : vb.getLast? ≠ some 0) :
    chunksNat vb = 0 ↔ vb = [] := by
  induction vb with
  | nil => exact iff_of_true rfl rfl
  | cons b rest ih =>
    refine iff_of_false (fun hzero => ?_) (List.cons_ne_nil b rest)
    rw [chunksNat] at hzero
    have hrest : rest = [] := (ih hframed.tail (getLast?_tail_ne_zero hlast)).1 (by omega)
    have hb := hframed.head_toNat
    rw [if_pos hrest] at hb
    have hb0 : b = 0 := BitVec.eq_of_toNat_eq (show b.toNat = 0 by omega)
    exact hlast (by rw [hrest, hb0]; rfl)

/-- The chunking loop gives back a framed buffer whose last byte is not 0 from the Value that its chunks spell: what remains
after a byte is spelled by the bytes that follow, so bits remain exactly when bytes do (R102, R103). -/
theorem chunkLoop_of_chunksNat {passes : Nat} {rem : Value} {vb : List Byte} (hframed : Framed vb)
    (hlast : vb.getLast? ≠ some 0) (hlen : vb.length ≤ passes) (hrem : rem.toNat = chunksNat vb) :
    chunkLoop passes rem = vb := by
  induction vb generalizing passes rem with
  | nil =>
    obtain rfl : rem = 0 := BitVec.eq_of_toNat_eq hrem
    exact chunkLoop_zero passes
  | cons b rest ih =>
    obtain ⟨p, rfl⟩ := Nat.exists_eq_succ_of_ne_zero (show passes ≠ 0 by rw [List.length_cons] at hlen; omega)
    have hne : rem ≠ 0 := fun h0 =>
      List.cons_ne_nil b rest ((chunksNat_eq_zero_iff hframed hlast).1 (by rw [← hrem, h0]; rfl))
    have hnext : rem.toNat / 128 = chunksNat rest := by rw [hrem, chunksNat]; omega
    have hlast' := getLast?_tail_ne_zero hlast
    have hbyte : chunkByte rem = b := by
      apply BitVec.eq_of_toNat_eq
      rw [chunkByte_toNat, hnext, hframed.head_toNat, hrem, chunksNat]
      simp only [chunksNat_eq_zero_iff hframed.tail hlast']
      omega
    rw [chunkLoop_succ hne, hbyte,
      ih hframed.tail hlast' (Nat.le_of_succ_le_succ hlen) ((shiftChunk_toNat rem).trans hnext)]

/-- Settles O47: `[0x00]` is the buffer of 0; for any other canonical buffer the chunking loop gives it back. -/
theorem encodeRestoresEveryCanonicalBuffer : Obligations.EncodeRestoresEveryCanonicalBuffer := by
  intro vb hpos hle hframed hzero hfits
  rw [decodeNat_eq_chunkSum hle, chunkSum_pack hle] at hfits ⊢
  by_cases hlast : vb.getLast? = some 0
  · obtain ⟨b, rfl⟩ := List.length_eq_one_iff.1 (hzero hlast)
    obtain rfl : b = 0 := Option.some.inj hlast
    exact encodeValue_zero
  · have hnum : (BitVec.ofNat 64 (chunksNat vb)).toNat = chunksNat vb := by
      rw [BitVec.toNat_ofNat, Nat.mod_eq_of_lt hfits]
    have hne : BitVec.ofNat 64 (chunksNat vb) ≠ 0 := fun h0 => by
      rw [h0] at hnum
      have hnil := (chunksNat_eq_zero_iff hframed hlast).1 hnum.symm
      rw [hnil] at hpos
      exact absurd hpos (by decide)
    rw [encodeValue_of_ne hne]
    exact chunkLoop_of_chunksNat hframed hlast hle hnum

/-! ## A buffer that is not canonical -/

/-- DECODE of a word's own bytes whose chunks are all 0 ends `OK` with 0, however many they are (R125, R128). -/
theorem exec_decode_command_of_chunkSum_eq_zero {len : Len} {data : Wide} (h1 : 1 ≤ len.toNat) (h10 : len.toNat ≤ 10)
    (hsum : chunkSum len.toNat data = 0) (s : State) : exec (.decode .command len data) s = .next (s.after 1 8 0) := by
  have hsum' : chunkSum len.toNat (effectiveData .command data s) = 0 := hsum
  rw [decodeGivesTheChunkSum .command len data s len.toNat (.inl rfl) rfl h1 h10 (hsum'.trans_lt (by decide)), hsum']
  rfl

/-- Settles O42: both buffers have zero chunks only. -/
theorem decodeAcceptsANonCanonicalZero : Obligations.DecodeAcceptsANonCanonicalZero := by
  intro s
  have htwo : exec (.decode .command 2 0x8000) s = .next (s.after 1 8 0) :=
    exec_decode_command_of_chunkSum_eq_zero (by decide) (by decide) (by decide) s
  have hone : exec (.decode .command 1 0x00) s = .next (s.after 1 8 0) :=
    exec_decode_command_of_chunkSum_eq_zero (by decide) (by decide) (by decide) s
  exact ⟨htwo.trans hone.symm, htwo⟩

end Sys2Proof.Machine
end

section
/-! PROOFS. Steps and programs (43_arithmetic_and_laws.md R145, R149, R150): every command and every step completes, what a
response depends on, and the program RTRIP. -/

namespace Sys2Proof.Machine

/-! ## Completion -/

/-- The host's next action is the first of its list. -/
theorem State.nextAction_of_pending {s : State} {a : HostAction} {rest : List HostAction} (h : s.pending = a :: rest) :
    s.nextAction = some (a, { s with pending := rest }) := by
  rw [State.nextAction, h]

/-- Settles O4: the action taken is the word. -/
theorem stepRunsTheDecodedInstruction : Obligations.StepRunsTheDecodedInstruction := by
  rintro s w rest i hpending rfl
  simp only [step, State.nextAction_of_pending hpending]

/-- Settles O6: an instruction always answers a next state, and so does each of the things a step can do. -/
theorem everyCommandAndStepCompletes : Obligations.EveryCommandAndStepCompletes := by
  have hexec : ∀ (i : Instr) (s : State), ∃ t, exec i s = .next t := fun i s =>
    (exec_next_inv i s).imp fun _ h => h.1
  refine ⟨fun i s => (hexec i s).imp fun t ht => ⟨ht, exec_pending ht⟩, fun s => ?_⟩
  obtain ⟨-, h⟩ | ⟨w, rest, -, h⟩ | ⟨rest, -, h⟩ | ⟨a, rest, -, -, h⟩ := step_cases s
  · exact ⟨_, h⟩
  · exact (hexec (decode w) { s with pending := rest }).imp fun t ht => h.trans ht
  · exact ⟨_, h⟩
  · exact ⟨_, h⟩

/-! ## What a response depends on -/

/-- The response of a command is its outcome's; the state before it leaves no trace there (R47). -/
theorem finish_response (o : Except CodecError Result) (s s' : State) :
    (finish o s).response = (finish o s').response := by
  cases o <;> rfl

/-- Taking an operand looks at the registers only, and only to forward (R151). -/
theorem selectOperand_congr {src : OperandSource} {s s' : State} (h : src = .results → s.response = s'.response)
    (len : Len) (data : Wide) : selectOperand src len data s = selectOperand src len data s' := by
  cases src with
  | command => rfl
  | results =>
    obtain ⟨hstatus, hlen, hdata⟩ := Response.mk.inj (h rfl)
    rw [selectOperand, selectOperand, hstatus, hlen, hdata]

/-- The response of an operation depends on its operand only. -/
theorem runOperation_response_congr (f : Operand → Except CodecError Result) {src : OperandSource} {s s' : State}
    (h : src = .results → s.response = s'.response) (len : Len) (data : Wide) :
    (runOperation f src len data s).response = (runOperation f src len data s').response := by
  rw [runOperation, runOperation, selectOperand_congr h]
  exact finish_response _ s s'

/-- Settles O55: a reserved word has one response in every state; the three operations' depend on their operand, which
comes from the registers when bit 85 says so. -/
theorem responseDependsOnWordAndForwardedRegistersOnly :
    Obligations.ResponseDependsOnWordAndForwardedRegistersOnly := by
  intro w s s' h
  have hsrc : sourceOfBit (CommandWord.src w) = .results → s.response = s'.response := fun hres => h <| by
    by_contra hbit
    rw [sourceOfBit_src, if_neg hbit] at hres
    cases hres
  obtain ⟨-, hw⟩ | ⟨-, -, hw⟩ | ⟨-, -, hw⟩ | ⟨-, -, hw⟩ | ⟨-, -, hw⟩ := decode_cases w <;> rw [hw]
  · exact ⟨_, _, rfl, rfl, rfl⟩
  · exact ⟨_, _, rfl, rfl, rfl⟩
  · exact ⟨_, _, rfl, rfl, runOperation_response_congr parseOperand hsrc _ _⟩
  · exact ⟨_, _, rfl, rfl, runOperation_response_congr encodeOperand hsrc _ _⟩
  · exact ⟨_, _, rfl, rfl, runOperation_response_congr decodeOperand hsrc _ _⟩

/-! ## The program RTRIP -/

/-- A run goes on from the state that its first command leaves (R200). -/
theorem runWords_cons {w : CommandWord} {s t : State} (h : exec (decode w) s = .next t) (ws : List CommandWord) :
    runWords (w :: ws) s = runWords ws t := by
  rw [runWords, h]

/-- So does its trace, after the response of that command (R200). -/
theorem traceWords_cons {w : CommandWord} {s t : State} (h : exec (decode w) s = .next t) (ws : List CommandWord) :
    traceWords (w :: ws) s = t.response :: traceWords ws t := by
  rw [traceWords, h]

/-- A Value is read back from 80 bits whole (R62). -/
theorem valueField_setWidth (v : Value) : valueField (v.setWidth 80) = v :=
  (BitVec.extractLsb'_setWidth_of_le (by decide)).trans BitVec.extractLsb'_eq_self

/-- The word of `PARSE 8:` completes with the Value of its bytes (R80, R93). -/
theorem exec_parse_operandWord {rb : List Byte} (h : rb.length = 8) (s : State) :
    exec (decode (operandWord 0 Config.rawLen (placeRaw rb 0))) s = .next (complete (valueResult (parseValue rb)) s) := by
  have hword : decode (operandWord 0 Config.rawLen (placeRaw rb 0)) = .parse .command 8 (placeRaw rb 0) :=
    decode_assembleWord 0 .command 0 _ _
  obtain ⟨-, hlanes⟩ := placeRaw_readsBack h.le
  rw [h, Nat.sub_self, List.replicate_zero, List.append_nil] at hlanes
  rw [hword, exec_parse_ready (.inl rfl)]
  change Host.Outcome.next (finish (parseOperand ⟨8, placeRaw rb 0⟩) s) = _
  rw [parseOperand_eight, hlanes, finish_ok]

/-- `ENCODE RES` after a Value completes with its VarintBuffer (R107, R197). -/
theorem exec_encode_forwardWord (v : Value) (s : State) :
    exec (decode (forwardWord 1)) (complete (valueResult v) s) = .next (complete (varintResult (encodeValue v)) s) := by
  have hword : decode (forwardWord 1) = .encode .results 0 0 := decode_assembleWord 1 .results 0 0 0
  have hvalue : valueField (effectiveData .results 0 (complete (valueResult v) s)) = v := valueField_setWidth v
  rw [hword, exec_encode_ready (.inr rfl), hvalue]
  rfl

/-- `DECODE RES` after the VarintBuffer of a Value completes with the Value (R131). -/
theorem exec_decode_forwardWord (v : Value) (s : State) :
    exec (decode (forwardWord 2)) (complete (varintResult (encodeValue v)) s) = .next (s.after 1 8 (v.setWidth 80)) := by
  have hword : decode (forwardWord 2) = .decode .results 0 0 := decode_assembleWord 2 .results 0 0 0
  rw [hword]
  exact exec_decode_results_complete_varintResult 0 0 v s

/-- Settles O46: each of the three commands takes the result of the one before, and DECODE gives back the Value that ENCODE
was given. -/
theorem roundTripProgramRestoresTheValue : Obligations.RoundTripProgramRestoresTheValue := by
  refine ⟨by decide, fun rb s hrb => ?_⟩
  have hparse := exec_parse_operandWord hrb s
  have hencode := exec_encode_forwardWord (parseValue rb) s
  have hdecode := exec_decode_forwardWord (parseValue rb) s
  refine ⟨_, assemble_of_wellFormed (decide_eq_true hrb), ?_, ?_⟩
  · rw [lineWords, traceWords_cons hparse, traceWords_cons hencode, traceWords_cons hdecode]
    rfl
  · rw [lineWords, runWords_cons hparse, runWords_cons hencode, runWords_cons hdecode]
    rfl

end Sys2Proof.Machine
end

section
/-! PROOFS. Errors (60_exceptions.md R160 to R176): forwarding without a result, what an error writes, the status that each
word ends with, and several blocks side by side. -/

namespace Sys2Proof.Machine

/-! ## Forwarding without a result -/

/-- The result registers are an operand only beside `OK` (R75). -/
theorem operandReady_results_iff (s : State) : OperandReady .results s ↔ s.resStatus = 1 :=
  or_iff_right (by decide)

/-- A forwarded operation without a result ends in IllegalCommand, whatever the operation (R165). -/
theorem runOperation_results_of_status_ne (f : Operand → Except CodecError Result) (len : Len) (data : Wide)
    {s : State} (h : s.resStatus ≠ 1) : runOperation f .results len data s = s.after 4 0 0 :=
  runOperation_notReady f fun hready => h ((operandReady_results_iff s).1 hready)

/-- Settles O50: each of the three instructions is `runOperation` of its operation, and ENCODE leaves status 4, beside which
DECODE cannot forward either. -/
theorem forwardingWithoutResultIsIllegal : Obligations.ForwardingWithoutResultIsIllegal := by
  intro len data s h
  have hforward := fun f => congrArg (Host.Outcome.next (φ := Fault) (ρ := Refusal))
    (runOperation_results_of_status_ne f len data h)
  have hencode : exec (decode (encode (.encode .results len data))) s = .next (s.after 4 0 0) := by
    rw [decodeOfEncodeIsTheInstruction _ rfl]
    exact hforward encodeOperand
  have hdecode : exec (decode (encode (.decode .results len data))) (s.after 4 0 0) = .next (s.after 4 0 0) := by
    have hstatus : (s.after 4 0 0).resStatus ≠ 1 := show (4 : StatusWord) ≠ 1 by decide
    rw [decodeOfEncodeIsTheInstruction _ rfl]
    exact congrArg Host.Outcome.next (runOperation_results_of_status_ne decodeOperand len data hstatus)
  refine ⟨hforward parseOperand, hforward encodeOperand, hforward decodeOperand, ?_⟩
  rw [traceWords_cons hencode, traceWords_cons hdecode]
  rfl

/-! ## Error entry -/

/-- Error entry is the response of the error's code and two zeros (R166). -/
theorem raise_eq_after (e : CodecError) (s : State) : raise e s = s.after e.code 0 0 := rfl

/-- Settles O51: an instruction ends in error entry or completes, and then its status is `OK`. -/
theorem errorEntryWritesOnlyTheErrorResponse : Obligations.ErrorEntryWritesOnlyTheErrorResponse := by
  refine ⟨fun s => ⟨raise_eq_after _ s, raise_eq_after _ s, raise_eq_after _ s⟩, fun i s t ht hne => ?_⟩
  obtain ⟨e, he⟩ | ⟨o, r, hr, -⟩ := exec_cases i s
  · cases he.symm.trans ht
    rw [raise_resStatus, raise_eq_after]
  · cases hr.symm.trans ht
    exact absurd (complete_resStatus r s) hne

/-! ## The priority of causes -/

/-- A command that is not ready ends in IllegalCommand before its operation is looked at (R165, R167). -/
theorem runOperation_resStatus (f : Operand → Except CodecError Result) (src : OperandSource) (len : Len) (data : Wide)
    (s : State) :
    (runOperation f src len data s).resStatus =
      if ¬ OperandReady src s then 4
      else (finish (f ⟨effectiveLen src len s, effectiveData src data s⟩) s).resStatus := by
  obtain ⟨hready, h⟩ | ⟨hnot, h⟩ := runOperation_cases f src len data s
  · rw [h, if_neg (not_not.2 hready)]
  · rw [h, if_pos hnot]
    rfl

/-- PARSE fails by its length alone (R91, R92). -/
theorem finish_parseOperand_resStatus (len : Len) (data : Wide) (s : State) :
    (finish (parseOperand ⟨len, data⟩) s).resStatus =
      if len.toNat < 8 then 2 else if 8 < len.toNat then 4 else 1 := by
  by_cases hlt : len.toNat < 8
  · rw [parseOperand_of_len_lt hlt, if_pos hlt]
    rfl
  · rw [if_neg hlt]
    by_cases hgt : 8 < len.toNat
    · rw [parseOperand_of_lt_len hgt, if_pos hgt]
      rfl
    · obtain rfl : len = 8 := BitVec.eq_of_toNat_eq (show len.toNat = 8 by omega)
      rfl

/-- DECODE fails by its length first, and by its value last (R122, R123, R127). -/
theorem finish_decodeOperand_resStatus (len : Len) (data : Wide) (s : State) :
    (finish (decodeOperand ⟨len, data⟩) s).resStatus =
      if len.toNat = 0 then 4
      else if 11 ≤ len.toNat then 3
      else if 2 ^ 64 ≤ chunkSum len.toNat data then 3
      else 1 := by
  by_cases h0 : len.toNat = 0
  · rw [decodeOperand_of_len_lt (by omega), if_pos h0]
    rfl
  · rw [if_neg h0]
    by_cases h11 : 11 ≤ len.toNat
    · rw [decodeOperand_of_lt_len h11, if_pos h11]
      rfl
    · rw [decodeOperand_of_len_le (by omega) (by omega), if_neg h11]
      split_ifs <;> rfl

/-- The reserved bit is bit 84 (R71). -/
theorem rsv_eq_one_iff (w : CommandWord) : CommandWord.rsv w = 1 ↔ w.getLsbD 84 = true := by
  have hbit : CommandWord.rsv w = BitVec.ofBool (w.getLsbD 84) :=
    BitVec.eq_of_getLsbD_eq fun i hi => by
      obtain rfl : i = 0 := by omega
      simp [CommandWord.rsv]
  rw [hbit]
  cases w.getLsbD 84 <;> decide

/-- A word that is not reserved is one of the three operations (R76, R78). -/
theorem decode_of_not_reserved {w : CommandWord} (h : ¬ (w.getLsbD 84 = true ∨ w.extractLsb' 86 2 = 3)) :
    (w.extractLsb' 86 2 = 0 ∧ decode w = .parse (sourceOfBit (CommandWord.src w)) (CommandWord.len w)
      (CommandWord.data w)) ∨
    (w.extractLsb' 86 2 = 1 ∧ decode w = .encode (sourceOfBit (CommandWord.src w)) (CommandWord.len w)
      (CommandWord.data w)) ∨
    (w.extractLsb' 86 2 = 2 ∧ decode w = .decode (sourceOfBit (CommandWord.src w)) (CommandWord.len w)
      (CommandWord.data w)) := by
  obtain ⟨hrsv, -⟩ | ⟨-, hop, -⟩ | ⟨-, hw⟩ | ⟨-, hw⟩ | ⟨-, hw⟩ := decode_cases w
  · exact absurd (.inl ((rsv_eq_one_iff w).1 hrsv)) h
  · exact absurd (.inr hop) h
  · exact .inl hw
  · exact .inr (.inl hw)
  · exact .inr (.inr hw)

/-- A word whose operand is not ready is one that forwards without a result (R75, R165). -/
theorem not_operandReady_iff (w : CommandWord) (s : State) :
    ¬ OperandReady (sourceOfBit (CommandWord.src w)) s ↔ w.getLsbD 85 = true ∧ s.resStatus ≠ 1 := by
  rw [sourceOfBit_src]
  cases w.getLsbD 85 with
  | false => exact iff_of_false (not_not.2 (.inl rfl)) fun h => absurd h.1 (by decide)
  | true => exact (not_congr (operandReady_results_iff s)).trans (and_iff_right rfl).symm

/-- Settles O52: a reserved word answers before its source is looked at; then an operand that is not ready answers, before
the operation; then the operation's own tests do, in their order. -/
theorem firstCauseThatAppliesIsReported : Obligations.FirstCauseThatAppliesIsReported := by
  intro w s
  simp only [← sourceOfBit_src, ← not_operandReady_iff]
  by_cases hres : w.getLsbD 84 = true ∨ w.extractLsb' 86 2 = 3
  · obtain ⟨-, -, hreserved⟩ := reservedWordsEndInIllegalCommand
    exact ⟨_, hreserved w s hres.symm, (if_pos hres).symm⟩
  · rw [if_neg hres]
    obtain ⟨hop, hw⟩ | ⟨hop, hw⟩ | ⟨hop, hw⟩ := decode_of_not_reserved hres <;> rw [hw, hop]
    · refine ⟨_, rfl, (runOperation_resStatus parseOperand _ _ _ s).trans ?_⟩
      rw [finish_parseOperand_resStatus]
      rfl
    · exact ⟨_, rfl, runOperation_resStatus encodeOperand _ _ _ s⟩
    · refine ⟨_, rfl, (runOperation_resStatus decodeOperand _ _ _ s).trans ?_⟩
      rw [finish_decodeOperand_resStatus]
      rfl

/-! ## Several blocks -/

/-- A step of block `k` is its own step, at its own place in the list (R176). -/
theorem stepBlock_eq_modify {f : State → State} (hf : ∀ s, step s = .next (f s)) (k : Nat) (blocks : List State) :
    stepBlock k blocks = .next (blocks.modify k f) := by
  rw [stepBlock, List.modify_eq_set_getElem?]
  cases blocks[k]? with
  | none => rfl
  | some s => simp only [hf]; rfl

/-- Settles O57: with `f` for the step of one block, which always completes, the step of block `k` is `modify k f`, and
`modify` at two places commutes. -/
theorem blocksShareNothing : Obligations.BlocksShareNothing := by
  obtain ⟨-, hcompletes⟩ := everyCommandAndStepCompletes
  choose f hf using hcompletes
  have hstep := stepBlock_eq_modify hf
  refine fun blocks j k => ⟨fun s hs => ⟨f s, hf s, ?_⟩, ⟨_, hstep k blocks, List.length_modify .., fun m hm => ?_⟩,
    fun hjk => ⟨_, _, _, hstep j blocks, hstep k blocks, hstep k _, ?_⟩⟩
  · rw [hstep, List.modify_eq_set_getElem?, hs]
    rfl
  · exact List.getElem?_modify_ne f blocks hm.symm
  · rw [hstep, List.modify_modify_ne f f blocks hjk]

end Sys2Proof.Machine
end

section
/-! PROOFS. Reset and sequencing (70_reset_and_hazards.md R190, R197, R200): what the host's reset leaves, what a forwarded
PARSE or ENCODE makes of a VarintBuffer, and steps against runs of the host's list. -/

namespace Sys2Proof.Machine

/-! ## Reset -/

/-- Settles O2: `step` sends both actions of reset to `assertReset`, on the rest of the host's list. -/
theorem resetActionClearsTheRegisters : Obligations.ResetActionClearsTheRegisters :=
  fun _ _ => ⟨rfl, fun _ => rfl⟩

/-! ## PARSE and ENCODE on the result of an ENCODE -/

/-- Bits 63:0 of a number in 80 bits are the number in 64 bits (R62). -/
theorem valueField_ofNat (m : Nat) : valueField (BitVec.ofNat 80 m) = BitVec.ofNat 64 m :=
  (BitVec.setWidth_eq_extractLsb' (by decide)).symm.trans (BitVec.setWidth_ofNat_of_le (by decide) m)

/-- `ENCODE RES` after any `OK` takes bits 63:0 of the data that it left (R107, R197). -/
theorem exec_encode_results_after (len n : Len) (data : Wide) (m : Nat) (s : State) :
    exec (.encode .results len data) (s.after 1 n (BitVec.ofNat 80 m))
      = .next (s.after 1 (BitVec.ofNat 4 (varintLength (BitVec.ofNat 64 m)))
          (BitVec.ofNat 80 (packedNat (BitVec.ofNat 64 m)))) :=
  (encodeGivesLengthAndPackedForm .results len data (s.after 1 n (BitVec.ofNat 80 m)) _ (.inr rfl)
    (valueField_ofNat m)).1

/-- Settles O48: ENCODE leaves the triple (1, n, P), from which a forwarded PARSE takes `n` as its length and a forwarded
ENCODE takes `P[63:0]` as its Value. For `n = 8` the triple is a Value already, which PARSE gives back. -/
theorem illTypedChainsAfterEncode : Obligations.IllTypedChainsAfterEncode := by
  intro src len len' data data' s hready
  obtain ⟨hexec, hten, hpacked⟩ := encodeGivesLengthAndPackedForm src len data s _ hready rfl
  generalize (effectiveData src data s).extractLsb' 0 64 = v at *
  refine ⟨_, v, hexec, rfl, ?_⟩
  have hlen : (BitVec.ofNat 4 (varintLength v)).toNat = varintLength v := by
    rw [BitVec.toNat_ofNat]
    exact Nat.mod_eq_of_lt (by omega)
  refine ⟨fun hlt => ?_, fun heq => ?_, fun hgt => ?_, ?_⟩
  · exact parseOfTooFewBytesIsTruncated .results len' data' _ (.inr rfl) (hlen.trans_lt hlt)
  · rw [heq] at hpacked ⊢
    refine parseOfAForwardedValueIsIdentity len' data' (s.after 1 8 (BitVec.ofNat 80 (packedNat v))) rfl rfl ?_
    exact (Nat.mod_le _ _).trans_lt hpacked
  · exact parseOfTooManyBytesIsIllegal .results len' data' _ (.inr rfl) (hgt.trans_eq hlen.symm)
  · exact exec_encode_results_after len' _ data' _ s

/-! ## Steps and runs -/

/-- A word does the same whatever the host lists after it, and leaves that list as it is (R26; log 1). -/
theorem exec_setPending {w : CommandWord} {s t : State} (h : exec (decode w) s = .next t) (rest : List HostAction) :
    exec (decode w) { s with pending := rest } = .next { t with pending := rest } := by
  obtain ⟨t₁, t', h₁, h', hresponse⟩ :=
    responseDependsOnWordAndForwardedRegistersOnly w s { s with pending := rest } fun _ => rfl
  cases h.symm.trans h₁
  obtain ⟨hstatus, hlen, hdata⟩ := Response.mk.inj hresponse
  have hpending : t'.pending = rest := exec_pending h'
  rw [h', hstatus, hlen, hdata, ← hpending]

/-- As many steps as words are the run of those words (R26, R200; log 1). -/
theorem core_run_issue (ws : List CommandWord) (rest : List HostAction) (s : State) :
    core.run ws.length { s with pending := ws.map HostAction.issue ++ rest }
      = runWords ws { s with pending := rest } := by
  induction ws generalizing s with
  | nil => rfl
  | cons w ws ih =>
    obtain ⟨t, ht, -⟩ := exec_next_inv (decode w) s
    have hstep : step { s with pending := (w :: ws).map HostAction.issue ++ rest }
        = .next { t with pending := ws.map HostAction.issue ++ rest } :=
      (stepRunsTheDecodedInstruction _ w _ _ rfl rfl).trans (exec_setPending ht _)
    rw [runWords_cons (exec_setPending ht rest), ← ih, List.length_cons, core_run_succ _ hstep]

/-- Every command of a run adds its triple to the trace (R200). -/
theorem length_traceWords (ws : List CommandWord) (s : State) : (traceWords ws s).length = ws.length := by
  induction ws generalizing s with
  | nil => rfl
  | cons w ws ih =>
    obtain ⟨t, ht, -⟩ := exec_next_inv (decode w) s
    rw [traceWords_cons ht, List.length_cons, List.length_cons, ih]

/-- A run completes, takes nothing from the host's list, and ends with the last triple of its trace (R200). -/
theorem runWords_completes (ws : List CommandWord) (s : State) :
    ∃ t, runWords ws s = .next t ∧ t.pending = s.pending ∧ (traceWords ws s).getLastD s.response = t.response := by
  induction ws generalizing s with
  | nil => exact ⟨s, rfl, rfl, rfl⟩
  | cons w ws ih =>
    obtain ⟨t, ht, -⟩ := exec_next_inv (decode w) s
    obtain ⟨u, hrun, hpending, hlast⟩ := ih t
    refine ⟨u, (runWords_cons ht ws).trans hrun, hpending.trans (exec_pending ht), ?_⟩
    rw [traceWords_cons ht, List.getLastD_cons, hlast]

/-- Settles O56: by induction on the list of words: each is one step, completes, and leaves the host's later actions
(the list `pending`, log 1) as they are. -/
theorem stepsCarryOutTheHostsList : Obligations.StepsCarryOutTheHostsList := fun ws rest s =>
  ⟨core_run_issue ws rest s, length_traceWords ws s, runWords_completes ws s⟩

end Sys2Proof.Machine
end
